-- ==== Sys2Proof/Word.lean ====
section
/-! DEFINITION. The bit-vector types of the CORE and its register numbers (spec/00_scope.md R5, R11). -/

namespace Sys2Proof

/-- A general register, a timer or a memory byte: 8 bits, unsigned (R11, R20, R27, R30). -/
abbrev Byte := BitVec 8

/-- An instruction word, the index register, the program counter, a stack slot or the key latch: 16 bits. -/
abbrev Word := BitVec 16

/-- One of the four nibbles of an instruction word (R92). -/
abbrev Nibble := BitVec 4

/-- The operand `nnn`: an absolute byte address of 12 bits (R94). -/
abbrev Addr := BitVec 12

/-- A register number 0..15 selecting V0..VF (R20). -/
abbrev Reg := Fin 16

/-- The number of the flag register VF (R21). -/
abbrev VF : Reg := 15

/-- The number of V0, the implicit offset of `Bnnn` (R147). -/
abbrev V0 : Reg := 0

end Sys2Proof
end

