-- ==== Sys2Proof/Machine/Flags.lean ====
section
/-! DEFINITION. The flag computations: what the five arithmetic and shift instructions put in VF (spec/42_register_alu.md
R160, R168 to R172). The collision flag of `Dxyn` is `Canvas.hit` of Machine/Ops.lean. -/

namespace Sys2Proof.Machine

/-- A flag as VF holds it: 0x00 or 0x01 (R21). -/
def flagByte (b : Bool) : Byte := bif b then 1 else 0

/-- Carry out of an 8-bit sum: the natural-number sum exceeds 255 (R168). -/
def carryOut (p q : Byte) : Bool := decide (255 < p.toNat + q.toNat)

/-- The flag of `p - q`: 1 exactly when p > q, strictly, so equal operands give 0 (R169; log 16). -/
def strictlyGreater (p q : Byte) : Bool := decide (q.toNat < p.toNat)

/-- The bit a right shift pushes out (R170). -/
def lowBit (t : Byte) : Bool := t.getLsbD 0

/-- The bit a left shift pushes out (R172). -/
def highBit (t : Byte) : Bool := t.getLsbD 7

end Sys2Proof.Machine
end

