-- ==== Sys2Proof/Config.lean ====
section
/-! DEFINITION. What is fixed for this hardware (spec/00_scope.md R5, R6) and the one free value (R173). -/

namespace Sys2Proof.Config

/-- The last valid memory address: MEM is bytes 0..4095 (R5, R60). -/
def lastAddr : Nat := 0xFFF

/-- PROG_BASE: where the ROM is loaded and execution starts (R5, R22). -/
def progBase : Nat := 0x200

/-- ROM_MAX: the largest ROM in bytes (R5). -/
def romMax : Nat := 3584

/-- FONT_BASE (R6; the spec's decision D13, log 15). -/
def fontBase : Nat := 0x050

/-- The bytes of one glyph (R5). -/
def glyphSize : Nat := 5

/-- Glyphs 0 to 7 of the default font (R293). -/
def glyphs0to7 : List Byte :=
  [0xF0, 0x90, 0x90, 0x90, 0xF0] ++ [0x20, 0x60, 0x20, 0x20, 0x70] ++
  [0xF0, 0x10, 0xF0, 0x80, 0xF0] ++ [0xF0, 0x10, 0xF0, 0x10, 0xF0] ++
  [0x90, 0x90, 0xF0, 0x10, 0x10] ++ [0xF0, 0x80, 0xF0, 0x10, 0xF0] ++
  [0xF0, 0x80, 0xF0, 0x90, 0xF0] ++ [0xF0, 0x10, 0x20, 0x40, 0x40]

/-- Glyphs 8 to F of the default font (R293). -/
def glyphs8toF : List Byte :=
  [0xF0, 0x90, 0xF0, 0x90, 0xF0] ++ [0xF0, 0x90, 0xF0, 0x10, 0xF0] ++
  [0xF0, 0x90, 0xF0, 0x90, 0x90] ++ [0xE0, 0x90, 0xE0, 0x90, 0xE0] ++
  [0xF0, 0x80, 0x80, 0x80, 0xF0] ++ [0xE0, 0x90, 0x90, 0x90, 0xE0] ++
  [0xF0, 0x80, 0xF0, 0x80, 0xF0] ++ [0xF0, 0x80, 0xF0, 0x80, 0x80]

/-- The default font of R293, used when `Load` is given none: glyph d is bytes 5d..5d+4 (R291).
PRESUMED: the spec itself takes these bytes from general knowledge (G7, log 15). -/
def defaultFont : Vector Byte 80 := ⟨(glyphs0to7 ++ glyphs8toF).toArray, by decide⟩

/-- The `rnd` argument of the `k`-th `Step` whose event does not name one. FREE VALUE: no body, so a claim holds
for every stream of random bytes (R173: "under no law at all"; log 2). -/
opaque randomByte : Nat → Byte

end Sys2Proof.Config
end

