-- ==== Sys2Proof/Syntax.lean ====
section
/-! DEFINITION. The instructions: one constructor per row of spec/opcode_table.json, in its order
(spec/30_encoding.md R95). Operand ranges are the fields' widths (R92, R94), so they are types. -/

namespace Sys2Proof

/-- The 34 instructions of R95. -/
inductive Instr where
  /-- `00E0` CLS (R211). -/
  | cls
  /-- `00EE` RET (R141). -/
  | ret
  /-- `1nnn` JP nnn (R143). -/
  | jp (nnn : Addr)
  /-- `2nnn` CALL nnn (R142). -/
  | call (nnn : Addr)
  /-- `3xnn` SE Vx, nn (R144). -/
  | seImm (x : Reg) (nn : Byte)
  /-- `4xnn` SNE Vx, nn (R145). -/
  | sneImm (x : Reg) (nn : Byte)
  /-- `5xy0` SE Vx, Vy (R146). -/
  | seReg (x y : Reg)
  /-- `9xy0` SNE Vx, Vy (R148). -/
  | sneReg (x y : Reg)
  /-- `6xnn` LD Vx, nn (R161). -/
  | ldImm (x : Reg) (nn : Byte)
  /-- `7xnn` ADD Vx, nn (R162). -/
  | addImm (x : Reg) (nn : Byte)
  /-- `8xy0` LD Vx, Vy (R163). -/
  | ldReg (x y : Reg)
  /-- `8xy1` OR Vx, Vy (R164). -/
  | orReg (x y : Reg)
  /-- `8xy2` AND Vx, Vy (R165). -/
  | andReg (x y : Reg)
  /-- `8xy3` XOR Vx, Vy (R166). -/
  | xorReg (x y : Reg)
  /-- `8xy4` ADD Vx, Vy (R168). -/
  | addReg (x y : Reg)
  /-- `8xy5` SUB Vx, Vy (R169). -/
  | subReg (x y : Reg)
  /-- `8xy6` SHR Vx, Vy (R170). -/
  | shrReg (x y : Reg)
  /-- `8xy7` SUBN Vx, Vy (R171). -/
  | subnReg (x y : Reg)
  /-- `8xyE` SHL Vx, Vy (R172). -/
  | shlReg (x y : Reg)
  /-- `Annn` LD I, nnn (R191). -/
  | ldI (nnn : Addr)
  /-- `Bnnn` JP V0, nnn (R147). -/
  | jpV0 (nnn : Addr)
  /-- `Cxnn` RND Vx, nn (R173). -/
  | rnd (x : Reg) (nn : Byte)
  /-- `Dxyn` DRW Vx, Vy, n (R212): `n` is a row count 0..15. -/
  | drw (x y : Reg) (n : Fin 16)
  /-- `Ex9E` SKP Vx (R231). -/
  | skp (x : Reg)
  /-- `ExA1` SKNP Vx (R232). -/
  | sknp (x : Reg)
  /-- `Fx07` LD Vx, DT (R236). -/
  | ldVxDT (x : Reg)
  /-- `Fx15` LD DT, Vx (R237). -/
  | ldDTVx (x : Reg)
  /-- `Fx18` LD ST, Vx (R238). -/
  | ldSTVx (x : Reg)
  /-- `Fx1E` ADD I, Vx (R192). -/
  | addI (x : Reg)
  /-- `Fx0A` LD Vx, K (R233). -/
  | ldVxK (x : Reg)
  /-- `Fx29` LD F, Vx (R193). -/
  | ldF (x : Reg)
  /-- `Fx33` LD B, Vx (R194). -/
  | ldB (x : Reg)
  /-- `Fx55` LD [I], Vx (R195): `x` is itself the last register index. -/
  | storeRegs (x : Reg)
  /-- `Fx65` LD Vx, [I] (R196): `x` is itself the last register index. -/
  | loadRegs (x : Reg)
deriving DecidableEq, Repr

/-- The six fields of an instruction word (R91, R92). They overlap, so not every term is the reading of a word:
see `Fields.wellFormed`. -/
structure Fields where
  op : Nibble
  x : Nibble
  y : Nibble
  n : Nibble
  nn : Byte
  nnn : Addr
deriving DecidableEq, Repr

end Sys2Proof
end

