-- ==== Sys2Proof/WellFormed.lean ====
section
/-! DEFINITION. The checks a term must pass to stand for something the CORE has: the field overlap of R92 and the ROM
length of R291. An `Instr` needs none: each operand's range is its type, and R98 gives no instruction a free bit. -/

namespace Sys2Proof

/-- "The fields overlap: `nn = y ∥ n`, `nnn = x ∥ y ∥ n`" (R92). -/
def Fields.wellFormed (f : Fields) : Bool :=
  f.nn == f.y ++ f.n && f.nnn == f.x ++ f.y ++ f.n

/-- `Load` accepts a ROM of 1 to 3584 bytes and no other (R291). -/
def romWellFormed (rom : List Byte) : Bool :=
  rom.length != 0 && rom.length ≤ Config.romMax

end Sys2Proof
end

