-- ==== Sys2Proof/Decode.lean ====
section
/-! DEFINITION. The decoder, total on any bytes and rejecting by name, the encoder, and the opcode rows of
spec/30_encoding.md (R90 to R98). -/

namespace Sys2Proof

/-- The six fields of a word (R92). -/
def Fields.ofWord (w : Word) : Fields where
  op := w.extractLsb' 12 4
  x := w.extractLsb' 8 4
  y := w.extractLsb' 4 4
  n := w.extractLsb' 0 4
  nn := w.extractLsb' 0 8
  nnn := w.extractLsb' 0 12

/-- Why bytes are no instruction: the rows of R97's table, or a fetch cut short (R121). -/
inductive Reject where
  /-- `0nnn` other than `00E0` and `00EE`. -/
  | unknown0
  /-- `5xyn` with n ≠ 0. -/
  | unknown5
  /-- `8xyn` with n in 8, 9, A, B, C, D, F. -/
  | unknown8
  /-- `9xyn` with n ≠ 0. -/
  | unknown9
  /-- `Exnn` with nn not 9E or A1. -/
  | unknownE
  /-- `Fxnn` with nn not 07, 0A, 15, 18, 1E, 29, 33, 55, 65. -/
  | unknownF
  /-- Fewer than two bytes: every instruction is two bytes (R90). -/
  | tooShort
deriving DecidableEq, Repr

/-- What the dispatcher answers for a word: one row of R95, or Unknown (R123). -/
inductive Decoded where
  | instr (i : Instr)
  | unknown (why : Reject)
deriving DecidableEq, Repr

/-- The register number a nibble names (R94). -/
def regOf (b : Nibble) : Reg := ⟨b.toNat, b.isLt⟩

/-- Op 0: the whole word selects (R95). -/
def decodeOp0 (f : Fields) : Decoded :=
  match f.nnn.toNat with
  | 0x0E0 => .instr .cls
  | 0x0EE => .instr .ret
  | _ => .unknown .unknown0

/-- Op 8: `n` selects (R95). -/
def decodeOp8 (f : Fields) : Decoded :=
  let x := regOf f.x
  let y := regOf f.y
  match f.n.toNat with
  | 0x0 => .instr (.ldReg x y)
  | 0x1 => .instr (.orReg x y)
  | 0x2 => .instr (.andReg x y)
  | 0x3 => .instr (.xorReg x y)
  | 0x4 => .instr (.addReg x y)
  | 0x5 => .instr (.subReg x y)
  | 0x6 => .instr (.shrReg x y)
  | 0x7 => .instr (.subnReg x y)
  | 0xE => .instr (.shlReg x y)
  | _ => .unknown .unknown8

/-- Op E: `nn` selects (R95). -/
def decodeOpE (f : Fields) : Decoded :=
  match f.nn.toNat with
  | 0x9E => .instr (.skp (regOf f.x))
  | 0xA1 => .instr (.sknp (regOf f.x))
  | _ => .unknown .unknownE

/-- Op F: `nn` selects (R95). -/
def decodeOpF (f : Fields) : Decoded :=
  let x := regOf f.x
  match f.nn.toNat with
  | 0x07 => .instr (.ldVxDT x)
  | 0x0A => .instr (.ldVxK x)
  | 0x15 => .instr (.ldDTVx x)
  | 0x18 => .instr (.ldSTVx x)
  | 0x1E => .instr (.addI x)
  | 0x29 => .instr (.ldF x)
  | 0x33 => .instr (.ldB x)
  | 0x55 => .instr (.storeRegs x)
  | 0x65 => .instr (.loadRegs x)
  | _ => .unknown .unknownF

/-- Dispatch "is on `op` first, then on `n` (op 5, 8, 9), on `nn` (op E, F), or on the whole word (op 0)" (R95).
The last arm is op F: `op` has four bits. -/
def decodeFields (f : Fields) : Decoded :=
  let x := regOf f.x
  let y := regOf f.y
  match f.op.toNat with
  | 0x0 => decodeOp0 f
  | 0x1 => .instr (.jp f.nnn)
  | 0x2 => .instr (.call f.nnn)
  | 0x3 => .instr (.seImm x f.nn)
  | 0x4 => .instr (.sneImm x f.nn)
  | 0x5 => if f.n = 0x0#4 then .instr (.seReg x y) else .unknown .unknown5
  | 0x6 => .instr (.ldImm x f.nn)
  | 0x7 => .instr (.addImm x f.nn)
  | 0x8 => decodeOp8 f
  | 0x9 => if f.n = 0x0#4 then .instr (.sneReg x y) else .unknown .unknown9
  | 0xA => .instr (.ldI f.nnn)
  | 0xB => .instr (.jpV0 f.nnn)
  | 0xC => .instr (.rnd x f.nn)
  | 0xD => .instr (.drw x y (regOf f.n))
  | 0xE => decodeOpE f
  | _ => decodeOpF f

/-- The instruction a word stands for, or why it is unknown (R91, R95, R97). -/
def decodeWord (w : Word) : Decoded := decodeFields (Fields.ofWord w)

/-- A word from its bytes: the byte at the lower address is bits 15:8 (R65, R90; the spec's decision D1, log 8). -/
def wordOfBytes (hi lo : Byte) : Word := hi ++ lo

/-- Decoding of bytes in address order: the instruction with the bytes after it, or the reason they are none. -/
def decode : List Byte → Except Reject (Instr × List Byte)
  | hi :: lo :: rest =>
    match decodeWord (wordOfBytes hi lo) with
    | .instr i => .ok (i, rest)
    | .unknown why => .error why
  | _ => .error .tooShort

/-! ### Encoding, by the formats of R93 -/

/-- The nibble that names a register. -/
def nibbleOf (r : Reg) : Nibble := BitVec.ofNat 4 r.val

/-- Format NNN. -/
def formNNN (op : Nibble) (nnn : Addr) : Word := op ++ nnn

/-- Format XNN. -/
def formXNN (op : Nibble) (x : Reg) (nn : Byte) : Word := op ++ (nibbleOf x ++ nn)

/-- Format XYN. -/
def formXYN (op : Nibble) (x y : Reg) (n : Nibble) : Word := op ++ (nibbleOf x ++ (nibbleOf y ++ n))

/-- Format XFF: the low byte is a function code. -/
def formXFF (op : Nibble) (x : Reg) (ff : Byte) : Word := formXNN op x ff

/-- The word of an instruction (R93, R95). -/
def encodeWord : Instr → Word
  | .cls => 0x00E0#16
  | .ret => 0x00EE#16
  | .jp nnn => formNNN 0x1 nnn
  | .call nnn => formNNN 0x2 nnn
  | .seImm x nn => formXNN 0x3 x nn
  | .sneImm x nn => formXNN 0x4 x nn
  | .seReg x y => formXYN 0x5 x y 0x0
  | .sneReg x y => formXYN 0x9 x y 0x0
  | .ldImm x nn => formXNN 0x6 x nn
  | .addImm x nn => formXNN 0x7 x nn
  | .ldReg x y => formXYN 0x8 x y 0x0
  | .orReg x y => formXYN 0x8 x y 0x1
  | .andReg x y => formXYN 0x8 x y 0x2
  | .xorReg x y => formXYN 0x8 x y 0x3
  | .addReg x y => formXYN 0x8 x y 0x4
  | .subReg x y => formXYN 0x8 x y 0x5
  | .shrReg x y => formXYN 0x8 x y 0x6
  | .subnReg x y => formXYN 0x8 x y 0x7
  | .shlReg x y => formXYN 0x8 x y 0xE
  | .ldI nnn => formNNN 0xA nnn
  | .jpV0 nnn => formNNN 0xB nnn
  | .rnd x nn => formXNN 0xC x nn
  | .drw x y n => formXYN 0xD x y (nibbleOf n)
  | .skp x => formXFF 0xE x 0x9E
  | .sknp x => formXFF 0xE x 0xA1
  | .ldVxDT x => formXFF 0xF x 0x07
  | .ldDTVx x => formXFF 0xF x 0x15
  | .ldSTVx x => formXFF 0xF x 0x18
  | .addI x => formXFF 0xF x 0x1E
  | .ldVxK x => formXFF 0xF x 0x0A
  | .ldF x => formXFF 0xF x 0x29
  | .ldB x => formXFF 0xF x 0x33
  | .storeRegs x => formXFF 0xF x 0x55
  | .loadRegs x => formXFF 0xF x 0x65

/-- The bytes of a word as memory holds it, lowest address first (R65). -/
def bytesOfWord (w : Word) : List Byte := [w.extractLsb' 8 8, w.extractLsb' 0 8]

/-- The bytes of an instruction as memory holds it, lowest address first. -/
def encode (i : Instr) : List Byte := bytesOfWord (encodeWord i)

/-! ### The opcode map as rows -/

/-- One row of R95's map: a word `w` is this instruction iff `w & mask = match`. -/
structure Row where
  pattern : Word
  mask : Word
deriving DecidableEq, Repr

/-- "A word `w` selects the row with `(w & mask) = match`" (R95). -/
def Row.selects (r : Row) (w : Word) : Bool := w &&& r.mask == r.pattern

/-- The row of an instruction in R95's table. -/
def rowOf : Instr → Row
  | .cls => ⟨0x00E0, 0xFFFF⟩
  | .ret => ⟨0x00EE, 0xFFFF⟩
  | .jp _ => ⟨0x1000, 0xF000⟩
  | .call _ => ⟨0x2000, 0xF000⟩
  | .seImm _ _ => ⟨0x3000, 0xF000⟩
  | .sneImm _ _ => ⟨0x4000, 0xF000⟩
  | .seReg _ _ => ⟨0x5000, 0xF00F⟩
  | .sneReg _ _ => ⟨0x9000, 0xF00F⟩
  | .ldImm _ _ => ⟨0x6000, 0xF000⟩
  | .addImm _ _ => ⟨0x7000, 0xF000⟩
  | .ldReg _ _ => ⟨0x8000, 0xF00F⟩
  | .orReg _ _ => ⟨0x8001, 0xF00F⟩
  | .andReg _ _ => ⟨0x8002, 0xF00F⟩
  | .xorReg _ _ => ⟨0x8003, 0xF00F⟩
  | .addReg _ _ => ⟨0x8004, 0xF00F⟩
  | .subReg _ _ => ⟨0x8005, 0xF00F⟩
  | .shrReg _ _ => ⟨0x8006, 0xF00F⟩
  | .subnReg _ _ => ⟨0x8007, 0xF00F⟩
  | .shlReg _ _ => ⟨0x800E, 0xF00F⟩
  | .ldI _ => ⟨0xA000, 0xF000⟩
  | .jpV0 _ => ⟨0xB000, 0xF000⟩
  | .rnd _ _ => ⟨0xC000, 0xF000⟩
  | .drw _ _ _ => ⟨0xD000, 0xF000⟩
  | .skp _ => ⟨0xE09E, 0xF0FF⟩
  | .sknp _ => ⟨0xE0A1, 0xF0FF⟩
  | .ldVxDT _ => ⟨0xF007, 0xF0FF⟩
  | .ldDTVx _ => ⟨0xF015, 0xF0FF⟩
  | .ldSTVx _ => ⟨0xF018, 0xF0FF⟩
  | .addI _ => ⟨0xF01E, 0xF0FF⟩
  | .ldVxK _ => ⟨0xF00A, 0xF0FF⟩
  | .ldF _ => ⟨0xF029, 0xF0FF⟩
  | .ldB _ => ⟨0xF033, 0xF0FF⟩
  | .storeRegs _ => ⟨0xF055, 0xF0FF⟩
  | .loadRegs _ => ⟨0xF065, 0xF0FF⟩

/-- The 34 rows of R95 in the order of the source's table. -/
def opcodeRows : List Row :=
  [⟨0x00E0, 0xFFFF⟩, ⟨0x00EE, 0xFFFF⟩, ⟨0x1000, 0xF000⟩, ⟨0x2000, 0xF000⟩, ⟨0x3000, 0xF000⟩, ⟨0x4000, 0xF000⟩,
   ⟨0x5000, 0xF00F⟩, ⟨0x9000, 0xF00F⟩, ⟨0x6000, 0xF000⟩, ⟨0x7000, 0xF000⟩] ++
  [⟨0x8000, 0xF00F⟩, ⟨0x8001, 0xF00F⟩, ⟨0x8002, 0xF00F⟩, ⟨0x8003, 0xF00F⟩, ⟨0x8004, 0xF00F⟩, ⟨0x8005, 0xF00F⟩,
   ⟨0x8006, 0xF00F⟩, ⟨0x8007, 0xF00F⟩, ⟨0x800E, 0xF00F⟩] ++
  [⟨0xA000, 0xF000⟩, ⟨0xB000, 0xF000⟩, ⟨0xC000, 0xF000⟩, ⟨0xD000, 0xF000⟩, ⟨0xE09E, 0xF0FF⟩, ⟨0xE0A1, 0xF0FF⟩] ++
  [⟨0xF007, 0xF0FF⟩, ⟨0xF015, 0xF0FF⟩, ⟨0xF018, 0xF0FF⟩, ⟨0xF01E, 0xF0FF⟩, ⟨0xF00A, 0xF0FF⟩, ⟨0xF029, 0xF0FF⟩,
   ⟨0xF033, 0xF0FF⟩, ⟨0xF055, 0xF0FF⟩, ⟨0xF065, 0xF0FF⟩]

/-! ### Words as the opcode table numbers them -/

/-- A table word: bit 0 is the least significant bit of the word, bits at or above `nbits` are 0. -/
def tableWord (nbits w : Nat) : Word := BitVec.ofNat 16 (w % 2 ^ nbits)

/-- The instruction the decoder reads from the bytes of a table word, `none` where it rejects them. -/
def decodeTableWord (nbits w : Nat) : Option Instr :=
  match decode (bytesOfWord (tableWord nbits w)) with
  | .ok (i, _) => some i
  | .error _ => none

end Sys2Proof
end

