-- ==== Sys2Proof/Machine/State.lean ====
section
/-! DEFINITION. State: every piece of state of spec/10_state.md, the host's ports as plain data, and the state after
reset (R38). -/

namespace Sys2Proof.Machine

/-- Memory: the bytes that differ from what reset left, by strictly rising address (`Memory.wf`). -/
abbrev Memory := List Host.Cell

/-- DISP: 32 rows of 64 one-bit cells, `DISP[r][c]` (R28, R210). -/
abbrev Display := Vector (Vector Bool 64) 32

/-- A font argument of `Load`: exactly 80 bytes (R291; the spec's decision D32, log 15). -/
abbrev Font := Vector Byte 80

/-- The faults a `Step` can report (R251). None stops the machine. -/
inductive StepFault where
  /-- Code 1, FSTAT bit 0 (R252, R253). -/
  | memoryFault
  /-- Code 2, FSTAT bit 1 (R254). -/
  | stackOverflow
  /-- Code 3, FSTAT bit 2 (R255). -/
  | stackUnderflow
  /-- Code 4, FSTAT bit 3 (R256). -/
  | unknownOpcode
deriving DecidableEq, Repr

/-- The `fault` field of a step result (R128, R251). -/
inductive StepCode where
  /-- Code 0: the step executed normally. -/
  | none
  /-- Codes 1 to 4. -/
  | fault (f : StepFault)
  /-- Code 5: a `Step` while HALTED = 1. -/
  | halted
deriving DecidableEq, Repr

/-- The three values every `Step` returns (R128). -/
structure StepResult where
  fault : StepCode
  dispChanged : Bool
  tone : Bool
deriving DecidableEq, Repr

/-- What the latest event returned to the host (R10). The model's own field: the spec counts it as an output, not as
state (R36; log 7). -/
inductive Reply where
  /-- `SetKeys` and `Tick` return nothing (R230, R240). -/
  | nothing
  /-- `Load` returned `ok` (R292). -/
  | loadOk
  /-- `Load` returned `LoadError` (R294). -/
  | loadError
  /-- A `Step` returned its result (R128). -/
  | stepped (r : StepResult)
deriving DecidableEq, Repr

/-- The host's four events (R7, R10). -/
inductive Event where
  /-- Reset and load; no font means the default one (R290, R291). -/
  | load (rom : List Byte) (font : Option Font) (strict : Bool)
  /-- Overwrite the key latch (R230). -/
  | setKeys (k : Word)
  /-- Execute one instruction; `rnd` is used by `Cxnn` only (R120, R173). -/
  | step (rnd : Byte)
  /-- One timer decrement (R240). -/
  | tick
deriving DecidableEq, Repr

/-- The CORE's state, and last the model's own fields for the host's ports. -/
structure State where
  /-- V0..VF (R20). -/
  v : Vector Byte 16
  /-- I, the index register (R24). -/
  idx : Word
  /-- PC (R22). -/
  pc : Word
  /-- SP, the stack depth 0..16 (R25). -/
  sp : Fin 17
  /-- STK[0..15] (R25). -/
  stk : Vector Word 16
  /-- DT, the delay timer (R27). -/
  dt : Byte
  /-- ST, the sound timer (R27). -/
  st : Byte
  /-- DISP (R28). -/
  disp : Display
  /-- KEY: bit k is 1 when key k is pressed (R29). -/
  key : Word
  /-- MEM (R30). -/
  mem : Memory
  /-- LOADED (R31). -/
  loaded : Bool
  /-- STRICT (R32). -/
  strict : Bool
  /-- HALTED (R33). -/
  halted : Bool
  /-- FSTAT (R34). -/
  fstat : BitVec 4
  /-- UNK_CNT (R35). -/
  unkCnt : BitVec 32
  /-- SOVF_CNT (R35). -/
  sovfCnt : BitVec 32
  /-- SUNF_CNT (R35). -/
  sunfCnt : BitVec 32
  /-- The `rnd` argument of the `Step` being executed (R120). The model's own field (log 2). -/
  rnd : Byte
  /-- How many free random bytes have been drawn. The model's own field (log 2). -/
  draws : Nat
  /-- What the latest event returned. The model's own field (log 7). -/
  reply : Reply
  /-- The host's pending events, oldest first. The model's own field (log 1). -/
  host : List Event
deriving DecidableEq, Repr

/-- The faults that stop the machine. There are none: every fault of the spec is reported in the step result and leaves a
next state (R250), so the type is empty. -/
inductive Fault where
deriving DecidableEq, Repr

/-- Why a step has no next state. -/
inductive Refusal where
  /-- An instruction whose meaning is not written: raised by no arm of `exec`. Safe: it stops the run. -/
  | notModelled (mnemonic : String)
  /-- `Step`, `Tick` or `SetKeys` while LOADED = 0, raised by `perform`: "While LOADED = 0, `Step`, `Tick` and `SetKeys`
  have no transition" (R31; U3 says to refuse). Safe: it stops the run. -/
  | notLoaded
deriving DecidableEq, Repr

/-- What one event or instruction answers. -/
abbrev Result := Host.Outcome State Fault Refusal

/-- The state right after reset: that of R38 after `Load` of the shortest ROM, one zero byte, with the default font and
STRICT = 0, so that no byte of memory is listed (DESIGN CHOICE, log 3). The slots of STK are unspecified in R38 and hold
0 here (DESIGN CHOICE, log 4). -/
def State.reset : State where
  v := Vector.replicate 16 0
  idx := 0
  pc := 0x200
  sp := 0
  stk := Vector.replicate 16 0
  dt := 0
  st := 0
  disp := Vector.replicate 32 (Vector.replicate 64 false)
  key := 0
  mem := []
  loaded := true
  strict := false
  halted := false
  fstat := 0
  unkCnt := 0
  sovfCnt := 0
  sunfCnt := 0
  rnd := 0
  draws := 0
  reply := .loadOk
  host := []

/-- Power-on: LOADED = 0 "and everything else unspecified" (R295). The model gives everything else the value it has in
State.reset, the reply excepted (DESIGN CHOICE, log 5). -/
def State.powerOn : State := { State.reset with loaded := false, reply := .nothing }

end Sys2Proof.Machine
end

