-- ==== Sys2Proof/Machine/Ops.lean ====
section
/-! DEFINITION. The named operations over memory, registers, the display and the stack, the commit of a step, and taking a
fault. There is no return from a fault to stand beside it: "There is no return-from-trap instruction" (R261). -/

namespace Sys2Proof.Machine

/-! ### Memory (spec/20_memory.md) -/

/-- What an address that memory does not list reads as: what `Load` with the default font leaves outside the ROM, the
default font at FONT_BASE and 0x00 elsewhere (R38, R61, R293; the spec's decisions D13 and D14, logs 6 and 15). -/
def resetByte (a : Nat) : Byte :=
  if Config.fontBase ≤ a then (Config.defaultFont[a - Config.fontBase]?).getD 0 else 0

/-- The byte at an address. -/
def Memory.read : Memory → Nat → Byte
  | [], a => resetByte a
  | (b, u) :: m, a => if b = a then u else Memory.read m a

/-- Memory with one byte written; the list stays in canonical form. -/
def Memory.write : Memory → Nat → Byte → Memory
  | [], a, w => if w = resetByte a then [] else [(a, w)]
  | (b, u) :: m, a, w =>
    if b < a then (b, u) :: Memory.write m a w
    else if b = a then (if w = resetByte a then m else (a, w) :: m)
    else (if w = resetByte a then (b, u) :: m else (a, w) :: (b, u) :: m)

/-- The canonical form: addresses strictly rise, lie in 0..4095 (R60), and no entry equals what its address reads as when
unlisted. -/
abbrev Memory.wf (m : Memory) : Prop :=
  m.Pairwise (fun p q => p.1 < q.1) ∧ ∀ c ∈ m, c.1 ≤ Config.lastAddr ∧ c.2 ≠ resetByte c.1

/-- Consecutive bytes written from an address up. -/
def Memory.fill : Memory → Nat → List Byte → Memory
  | m, _, [] => m
  | m, a, b :: bs => Memory.fill (m.write a b) (a + 1) bs

/-- The bounds check on the accesses `a`, …, `a + n - 1`: addresses are natural numbers, never reduced, and an access above
4095 is a MemoryFault; no access, no fault (R63). -/
abbrev inBounds (a n : Nat) : Prop := n = 0 ∨ a + n ≤ Config.lastAddr + 1

/-- `n` bytes read from `a` up, or none where the bounds check fails (R62, R63). -/
def Memory.readBlock (m : Memory) (a n : Nat) : Option (List Byte) :=
  if inBounds a n then some ((List.range n).map fun k => m.read (a + k)) else none

/-- Bytes written from `a` up, or none where the bounds check fails: then no byte is written (R67). -/
def Memory.writeBlock (m : Memory) (a : Nat) (bs : List Byte) : Option Memory :=
  if inBounds a bs.length then some (m.fill a bs) else none

/-! ### General registers (R20) -/

/-- `V[x]`. -/
def State.getV (s : State) (x : Reg) : Byte := s.v[x]

/-- `V[x] <- b`. -/
def State.setV (s : State) (x : Reg) (b : Byte) : State := { s with v := s.v.set x b }

/-! ### The call stack (R25) -/

/-- Push, or none on a full stack (R142). -/
def State.push (s : State) (r : Word) : Option State :=
  if h : s.sp.val < 16 then
    some { s with stk := s.stk.set s.sp.val r, sp := ⟨s.sp.val + 1, by omega⟩ }
  else none

/-- Pop, or none on an empty stack; the popped slot keeps its bits (R141). -/
def State.pop (s : State) : Option (Word × State) :=
  if h : s.sp.val = 0 then none
  else some (s.stk[s.sp.val - 1], { s with sp := ⟨s.sp.val - 1, by omega⟩ })

/-! ### The display and the XOR-draw engine (spec/44_display.md) -/

/-- All cells 0 (R211). -/
def clearDisplay : Display := Vector.replicate 32 (Vector.replicate 64 false)

/-- `DISP[r][c]`; outside the grid there is no cell, and the answer is false. -/
def Display.cell (d : Display) (r c : Nat) : Bool :=
  if h : r < 32 ∧ c < 64 then (d[r]'h.1)[c]'h.2 else false

/-- The display being drawn and whether a cell went from 1 to 0 so far (R212's `hit`). -/
structure Canvas where
  disp : Display
  hit : Bool
deriving DecidableEq, Repr

/-- One sprite bit at row `cy`, column `cx`: discarded outside the grid, XORed inside (R212). -/
def plotBit (cy cx : Nat) (bit : Bool) (k : Canvas) : Canvas :=
  if h : cy < 32 ∧ cx < 64 then
    let old := (k.disp[cy]'h.1)[cx]'h.2
    { disp := k.disp.set cy ((k.disp[cy]'h.1).set cx (old ^^ bit) h.2) h.1
      hit := k.hit || (old && bit) }
  else k

/-- One sprite byte: bit 7 is column 0 (R212; the spec's decision D12, log 14). -/
def plotRow (x0 cy : Nat) (b : Byte) (k : Canvas) : Canvas :=
  (List.range 8).foldl (fun k col => plotBit cy (x0 + col) (b.getLsbD (7 - col)) k) k

/-- The sprite's bytes, one row each, from row `y0` down (R212). -/
def drawSprite (x0 : Nat) : Nat → List Byte → Canvas → Canvas
  | _, [], k => k
  | y, b :: bs, k => drawSprite x0 (y + 1) bs (plotRow x0 y b k)

/-! ### The ports of R10 -/

/-- ST > 0 (R241). -/
def State.tone (s : State) : Bool := decide (0 < s.st.toNat)

/-- The `tone` port, between events; nothing while LOADED = 0 (log 5). -/
def State.tonePort (s : State) : Option Bool := if s.loaded then some s.tone else none

/-- The DISP snapshot port, between events; nothing while LOADED = 0 (R210, log 5). -/
def State.snapshot (s : State) : Option Display := if s.loaded then some s.disp else none

/-- The diagnostic port: FSTAT, HALTED, UNK_CNT, SOVF_CNT, SUNF_CNT (R262 to R266). -/
def State.diagnostics (s : State) : Option (BitVec 4 × Bool × BitVec 32 × BitVec 32 × BitVec 32) :=
  if s.loaded then some (s.fstat, s.halted, s.unkCnt, s.sovfCnt, s.sunfCnt) else none

/-- The number of a fault code (R251). -/
def StepCode.number : StepCode → BitVec 3
  | .none => 0
  | .fault .memoryFault => 1
  | .fault .stackOverflow => 2
  | .fault .stackUnderflow => 3
  | .fault .unknownOpcode => 4
  | .halted => 5

/-! ### Fetch, commit and faults (spec/40_step_and_dispatch.md) -/

/-- The working next-PC on entry to an instruction, a natural number (R122). -/
def State.npc (s : State) : Nat := s.pc.toNat + 2

/-- The two bytes at PC, or none where the fetch would read past the last valid byte (R121). -/
def State.fetch (s : State) : Option (List Byte) := s.mem.readBlock s.pc.toNat 2

/-- FSTAT with the fault's bit set (R34). -/
def setFstat (f : StepFault) (r : BitVec 4) : BitVec 4 :=
  match f with
  | .memoryFault => r ||| 0b0001
  | .stackOverflow => r ||| 0b0010
  | .stackUnderflow => r ||| 0b0100
  | .unknownOpcode => r ||| 0b1000

/-- One more, and 0xFFFFFFFF stays (R35; the spec's decision D9, log 10). -/
def satInc (c : BitVec 32) : BitVec 32 := if c = 0xFFFFFFFF#32 then c else c + 1

/-- The counter of a rejected step moved; a MemoryFault has none (R35, R251). -/
def State.count (s : State) (f : StepFault) : State :=
  match f with
  | .memoryFault => s
  | .stackOverflow => { s with sovfCnt := satInc s.sovfCnt }
  | .stackUnderflow => { s with sunfCnt := satInc s.sunfCnt }
  | .unknownOpcode => { s with unkCnt := satInc s.unkCnt }

/-- The step's result in the reply port, `tone` as after the commit (R128). -/
def State.answer (s : State) (code : StepCode) (dispChanged : Bool) : State :=
  { s with reply := .stepped ⟨code, dispChanged, s.tone⟩ }

/-- A fault recorded: its FSTAT bit, HALTED where STRICT = 1, and the step's result (R127). PC stays. -/
def State.recordFault (s : State) (f : StepFault) : State :=
  { s with fstat := setFstat f s.fstat, halted := s.halted || s.strict }.answer (.fault f) false

/-- Which fault the step reports: at 0xFFE the final PC check turns a rejected instruction's fault into a MemoryFault
(R127, R257; the spec's decision D22, log 9). -/
def State.reportedFault (s : State) (f : StepFault) : StepFault :=
  if s.npc ≤ Config.lastAddr then f else .memoryFault

/-- TAKING A FAULT, the three fault cases of R127, on the state as it was when the step began: nothing of the instruction is
committed. A MemoryFault leaves PC; a stack or opcode fault with STRICT = 0 moves PC past the instruction and counts it;
with STRICT = 1 it halts with PC unchanged (R253 to R258). -/
def State.takeFault (s : State) (f : StepFault) : State :=
  match s.reportedFault f with
  | .memoryFault => s.recordFault .memoryFault
  | g => if s.strict then s.recordFault g else ({ s with pc := BitVec.ofNat 16 s.npc }.count g).recordFault g

/-- The end of an instruction that raised nothing: `s` is the state the step began in, `w` the working copy, `npc` the final
next-PC. Above 0xFFF the step is a MemoryFault (R126), else the working copy is committed (R127, R128). -/
def commit (s w : State) (npc : Nat) (dispChanged : Bool) : Result :=
  if npc ≤ Config.lastAddr then .next ({ w with pc := BitVec.ofNat 16 npc }.answer .none dispChanged)
  else .next (s.takeFault .memoryFault)

/-- `commit` of an instruction that leaves the display and goes on to the next one. -/
def commitNext (s w : State) : Result := commit s w s.npc false

/-- A skip: 2 more where the condition holds (R144). -/
def commitSkip (s : State) (taken : Bool) : Result :=
  commit s s (if taken then s.npc + 2 else s.npc) false

/-! ### Placing a program for the next step -/

/-- `s` made ready to fetch at its PC: loaded, not halted, no event ahead of the `Step`, and PC where two bytes can be
fetched (log 20). -/
def State.readyToFetch (s : State) : State :=
  { s with loaded := true, halted := false, host := [], pc := if s.pc.toNat ≤ 0xFFE then s.pc else 0x200 }

/-- `s` with bytes stored at PC. -/
def State.storeAtPc (s : State) (bs : List Byte) : State := { s with mem := s.mem.fill s.pc.toNat bs }

end Sys2Proof.Machine
end

