-- ==== Sys2Proof/Machine/Operands.lean ====
section
/-! DEFINITION. The operand forms (spec/30_encoding.md R94, spec/20_memory.md R62): what a field, the index register or a
register gives the instruction that names it. -/

namespace Sys2Proof.Machine

/-- `nnn` as a jump or call target, or as an index value: zero-extended to 16 bits, not scaled, not PC-relative (R94). -/
def absTarget (nnn : Addr) : Word := nnn.setWidth 16

/-- The target of `Bnnn`: the natural number `nnn + V[0]`, not reduced (R147; the spec's decision D34, log 11). -/
def State.offsetTarget (s : State) (nnn : Addr) : Nat := nnn.toNat + (s.getV V0).toNat

/-- The address I as a natural number, the base of every data access (R62). -/
def State.dataAddr (s : State) : Nat := s.idx.toNat

/-- The key number of `Ex9E` and `ExA1`: the low nibble of Vx (R231; the spec's decision D11, log 13). -/
def State.keyNumber (s : State) (x : Reg) : Nat := (s.getV x).toNat % 16

/-- `KEY[k]` (R29). -/
def State.keyDown (s : State) (k : Nat) : Bool := s.key.getLsbD k

/-- The lowest pressed key, none where KEY = 0 (R233, R234). -/
def lowestKey (k : Word) : Option Reg := (List.finRange 16).find? fun i => k.getLsbD i.val

/-- The address of the glyph of Vx's low nibble: FONT_BASE + 5 * (V[x] & 0x0F) (R193). -/
def State.glyphAddr (s : State) (x : Reg) : Nat := Config.fontBase + Config.glyphSize * ((s.getV x).toNat % 16)

/-- The start column of a draw: V[x] mod 64 (R212). -/
def State.drawCol (s : State) (x : Reg) : Nat := (s.getV x).toNat % 64

/-- The start row of a draw: V[y] mod 32 (R212). -/
def State.drawRow (s : State) (y : Reg) : Nat := (s.getV y).toNat % 32

/-- V0, …, V[x], as `Fx55` stores them, V0 first (R195). -/
def State.regsUpTo (s : State) (x : Reg) : List Byte := s.v.toList.take (x.val + 1)

/-- V0, V1, … taking the bytes of a list in order; registers past the list keep their values (R196). -/
def loadPrefix (v : Vector Byte 16) (bs : List Byte) : Vector Byte 16 :=
  Vector.ofFn fun k => (bs[k.val]?).getD v[k]

/-- The decimal digits of a byte: hundreds, tens, ones (R194). -/
def bcdDigits (b : Byte) : List Byte :=
  [BitVec.ofNat 8 (b.toNat / 100), BitVec.ofNat 8 (b.toNat / 10 % 10), BitVec.ofNat 8 (b.toNat % 10)]

end Sys2Proof.Machine
end

