-- ==== Sys2Proof/Machine/Alu.lean ====
section
/-! DEFINITION. Register load, arithmetic, logic, shift and random (spec/42_register_alu.md). Operands are read first; of two
writes to one register the later wins (R13, R167; the spec's decision D19, log 12). -/

namespace Sys2Proof.Machine

/-- Vx, then VF: the order of `8xy4`, `8xy5`, `8xy7` (R167). -/
def State.setThenFlag (s : State) (x : Reg) (b : Byte) (flag : Bool) : State :=
  (s.setV x b).setV VF (flagByte flag)

/-- VF, then Vx: the order of `8xy6`, `8xyE` (R167). -/
def State.flagThenSet (s : State) (x : Reg) (b : Byte) (flag : Bool) : State :=
  (s.setV VF (flagByte flag)).setV x b

/-- `6xnn`: Vx := nn (R161). -/
def execLdImm (x : Reg) (nn : Byte) (s : State) : Result := commitNext s (s.setV x nn)

/-- `7xnn`: Vx := (Vx + nn) mod 256, no flag (R162). -/
def execAddImm (x : Reg) (nn : Byte) (s : State) : Result := commitNext s (s.setV x (s.getV x + nn))

/-- `8xy0`: Vx := Vy (R163). -/
def execLdReg (x y : Reg) (s : State) : Result := commitNext s (s.setV x (s.getV y))

/-- `8xy1`: Vx := Vx OR Vy (R164). -/
def execOrReg (x y : Reg) (s : State) : Result := commitNext s (s.setV x (s.getV x ||| s.getV y))

/-- `8xy2`: Vx := Vx AND Vy (R165). -/
def execAndReg (x y : Reg) (s : State) : Result := commitNext s (s.setV x (s.getV x &&& s.getV y))

/-- `8xy3`: Vx := Vx XOR Vy (R166). -/
def execXorReg (x y : Reg) (s : State) : Result := commitNext s (s.setV x (s.getV x ^^^ s.getV y))

/-- `8xy4`: Vx := (Vx + Vy) mod 256; VF := carry (R168). -/
def execAddReg (x y : Reg) (s : State) : Result :=
  commitNext s (s.setThenFlag x (s.getV x + s.getV y) (carryOut (s.getV x) (s.getV y)))

/-- `8xy5`: Vx := (Vx - Vy) mod 256; VF := 1 if Vx > Vy (R169). -/
def execSubReg (x y : Reg) (s : State) : Result :=
  commitNext s (s.setThenFlag x (s.getV x - s.getV y) (strictlyGreater (s.getV x) (s.getV y)))

/-- `8xy6`: VF := Vy bit 0; Vx := Vy >> 1 (R170; the spec's decision D18, log 12). -/
def execShrReg (x y : Reg) (s : State) : Result :=
  commitNext s (s.flagThenSet x (s.getV y >>> 1) (lowBit (s.getV y)))

/-- `8xy7`: Vx := (Vy - Vx) mod 256; VF := 1 if Vy > Vx (R171). -/
def execSubnReg (x y : Reg) (s : State) : Result :=
  commitNext s (s.setThenFlag x (s.getV y - s.getV x) (strictlyGreater (s.getV y) (s.getV x)))

/-- `8xyE`: VF := Vy bit 7; Vx := Vy << 1 (R172; the spec's decision D18, log 12). -/
def execShlReg (x y : Reg) (s : State) : Result :=
  commitNext s (s.flagThenSet x (s.getV y <<< 1) (highBit (s.getV y)))

/-- `Cxnn`: Vx := rnd AND nn (R173; the spec's decision D10, log 2). -/
def execRnd (x : Reg) (nn : Byte) (s : State) : Result := commitNext s (s.setV x (s.rnd &&& nn))

end Sys2Proof.Machine
end

