-- ==== Sys2Proof/Machine/Control.lean ====
section
/-! DEFINITION. Control transfer (spec/41_control_flow.md). None writes V, I, DT, ST, DISP or MEM (R140). -/

namespace Sys2Proof.Machine

/-- `00EE`: pop the stack into PC; StackUnderflow if empty (R141). -/
def execRet (s : State) : Result :=
  match s.pop with
  | none => .next (s.takeFault .stackUnderflow)
  | some (r, w) => commit s w r.toNat false

/-- `1nnn`: PC := nnn (R143). -/
def execJp (nnn : Addr) (s : State) : Result := commit s s (absTarget nnn).toNat false

/-- `2nnn`: push the address after the call, StackOverflow if full; PC := nnn (R142). -/
def execCall (nnn : Addr) (s : State) : Result :=
  match s.push (BitVec.ofNat 16 s.npc) with
  | none => .next (s.takeFault .stackOverflow)
  | some w => commit s w (absTarget nnn).toNat false

/-- `3xnn`: skip if V[x] = nn (R144). -/
def execSeImm (x : Reg) (nn : Byte) (s : State) : Result := commitSkip s (s.getV x == nn)

/-- `4xnn`: skip if V[x] ≠ nn (R145). -/
def execSneImm (x : Reg) (nn : Byte) (s : State) : Result := commitSkip s (s.getV x != nn)

/-- `5xy0`: skip if V[x] = V[y] (R146). -/
def execSeReg (x y : Reg) (s : State) : Result := commitSkip s (s.getV x == s.getV y)

/-- `9xy0`: skip if V[x] ≠ V[y] (R148). -/
def execSneReg (x y : Reg) (s : State) : Result := commitSkip s (s.getV x != s.getV y)

/-- `Bnnn`: PC := nnn + V0 (R147). -/
def execJpV0 (nnn : Addr) (s : State) : Result := commit s s (s.offsetTarget nnn) false

end Sys2Proof.Machine
end

