-- ==== Sys2Proof/Machine/Draw.lean ====
section
/-! DEFINITION. The display instructions (spec/44_display.md). Both report `disp_changed` when they commit (R214; the spec's
decision D15, log 14). -/

namespace Sys2Proof.Machine

/-- `00E0`: all cells 0; VF is not written (R211). -/
def execCls (s : State) : Result := commit s { s with disp := clearDisplay } s.npc true

/-- `Dxyn`: the n bytes at I XORed onto the display from column V[x] mod 64, row V[y] mod 32, clipped; VF := collision, the
last write. All n bytes are checked, clipped or not (R212; the spec's decisions D18 and D26, logs 12 and 14). -/
def execDrw (x y : Reg) (n : Fin 16) (s : State) : Result :=
  match s.mem.readBlock s.dataAddr n.val with
  | none => .next (s.takeFault .memoryFault)
  | some bs =>
    let k := drawSprite (s.drawCol x) (s.drawRow y) bs ⟨s.disp, false⟩
    commit s ({ s with disp := k.disp }.setV VF (flagByte k.hit)) s.npc true

end Sys2Proof.Machine
end

