-- ==== Sys2Proof/Machine/Index.lean ====
section
/-! DEFINITION. The index register and memory (spec/43_index_memory.md). No memory access changes I (R190; the spec's
decision D27, log 11). -/

namespace Sys2Proof.Machine

/-- `Annn`: I := nnn (R191). -/
def execLdI (nnn : Addr) (s : State) : Result := commitNext s { s with idx := absTarget nnn }

/-- `Fx1E`: I := (I + Vx) mod 65536, no flag (R192; the spec's decisions D3 and D35, log 11). -/
def execAddI (x : Reg) (s : State) : Result := commitNext s { s with idx := s.idx + (s.getV x).setWidth 16 }

/-- `Fx29`: I := FONT_BASE + 5 * (Vx & 0xF); memory is not accessed (R193). -/
def execLdF (x : Reg) (s : State) : Result := commitNext s { s with idx := BitVec.ofNat 16 (s.glyphAddr x) }

/-- `Fx33`: the decimal digits of Vx at I, I+1, I+2 (R194). -/
def execLdB (x : Reg) (s : State) : Result :=
  match s.mem.writeBlock s.dataAddr (bcdDigits (s.getV x)) with
  | none => .next (s.takeFault .memoryFault)
  | some m => commitNext s { s with mem := m }

/-- `Fx55`: V0..Vx at I..I+x (R195). -/
def execStoreRegs (x : Reg) (s : State) : Result :=
  match s.mem.writeBlock s.dataAddr (s.regsUpTo x) with
  | none => .next (s.takeFault .memoryFault)
  | some m => commitNext s { s with mem := m }

/-- `Fx65`: V0..Vx from I..I+x (R196). -/
def execLoadRegs (x : Reg) (s : State) : Result :=
  match s.mem.readBlock s.dataAddr (x.val + 1) with
  | none => .next (s.takeFault .memoryFault)
  | some bs => commitNext s { s with v := loadPrefix s.v bs }

end Sys2Proof.Machine
end

