-- ==== Sys2Proof/Machine/Input.lean ====
section
/-! DEFINITION. Key input and timer instructions (spec/45_keys_timers.md). -/

namespace Sys2Proof.Machine

/-- `Ex9E`: skip if the key of Vx is pressed (R231). -/
def execSkp (x : Reg) (s : State) : Result := commitSkip s (s.keyDown (s.keyNumber x))

/-- `ExA1`: skip if the key of Vx is not pressed (R232). -/
def execSknp (x : Reg) (s : State) : Result := commitSkip s (!s.keyDown (s.keyNumber x))

/-- `Fx07`: Vx := DT (R236). -/
def execLdVxDT (x : Reg) (s : State) : Result := commitNext s (s.setV x s.dt)

/-- `Fx15`: DT := Vx (R237). -/
def execLdDTVx (x : Reg) (s : State) : Result := commitNext s { s with dt := s.getV x }

/-- `Fx18`: ST := Vx (R238). -/
def execLdSTVx (x : Reg) (s : State) : Result := commitNext s { s with st := s.getV x }

/-- `Fx0A`: with no key pressed PC rolls back to the instruction itself, else Vx := the lowest pressed key (R233, R234). -/
def execLdVxK (x : Reg) (s : State) : Result :=
  match lowestKey s.key with
  | none => commit s s (s.npc - 2) false
  | some k => commitNext s (s.setV x (BitVec.ofNat 8 k.val))

end Sys2Proof.Machine
end

