-- ==== Sys2Proof/Machine/Perform.lean ====
section
/-! DEFINITION. The host's four events (spec/00_scope.md R7): `Load`, `SetKeys`, `Step`, `Tick`, each atomic. -/

namespace Sys2Proof.Machine

/-- The font a `Load` copies: the host's, or the default one (R291, R293). -/
def fontBytes (font : Option Font) : List Byte := (font.getD Config.defaultFont).toList

/-- Memory after a successful `Load`: zero fill, the font at FONT_BASE, the ROM at 0x200 (R61, R292). -/
def loadedMemory (rom : List Byte) (font : Option Font) : Memory :=
  (Memory.fill [] Config.fontBase (fontBytes font)).fill Config.progBase rom

/-- `Load(rom, font, strict)` (R290 to R292, R294). It fails on a ROM of no bytes or of more than 3584: LOADED becomes 0 and
nothing else of the state is reachable any more (log 5). What the host has pending and the free draws are not the machine's
and stay. -/
def performLoad (rom : List Byte) (font : Option Font) (strict : Bool) (s : State) : State :=
  if romWellFormed rom then
    { State.reset with
      mem := loadedMemory rom font, strict := strict, draws := s.draws, host := s.host }
  else { s with loaded := false, reply := .loadError }

/-- `SetKeys(k)`: all 16 bits at once, nothing else (R230). -/
def performSetKeys (k : Word) (s : State) : State := { s with key := k, reply := .nothing }

/-- One less, floored at 0 (R240). -/
def countDown (t : Byte) : Byte := if 0 < t.toNat then t - 1 else t

/-- `Tick`: both timers count down (R240). -/
def performTick (s : State) : State := { s with dt := countDown s.dt, st := countDown s.st, reply := .nothing }

/-- `Step(rnd)` of a machine that is loaded and not halted: fetch at PC, decode, execute (R121 to R125). -/
def runInstruction (s : State) : Result :=
  match s.fetch with
  | none => .next (s.takeFault .memoryFault)
  | some bs =>
    match decode bs with
    | .ok (i, _) => exec i s
    | .error _ => .next (s.takeFault .unknownOpcode)

/-- `Step(rnd)` of a loaded machine. While HALTED = 1 it changes nothing and answers code 5 (R120, R258). -/
def performStep (rnd : Byte) (s : State) : Result :=
  if s.halted then .next (s.answer .halted false) else runInstruction { s with rnd := rnd }

/-- One host event. While LOADED = 0 only `Load` has a transition (R31). -/
def perform (e : Event) (s : State) : Result :=
  match e with
  | .load rom font strict => .next (performLoad rom font strict s)
  | .setKeys k => if s.loaded then .next (performSetKeys k s) else .refused .notLoaded
  | .step rnd => if s.loaded then performStep rnd s else .refused .notLoaded
  | .tick => if s.loaded then .next (performTick s) else .refused .notLoaded

/-- The events of a list performed in order, up to the first refusal. -/
def performAll : List Event → State → Result
  | [], s => .next s
  | e :: es, s =>
    match perform e s with
    | .next t => performAll es t
    | .fault f => .fault f
    | .refused r => .refused r

/-- The event a step performs, and the state without it: the oldest pending one, or a `Step` with a fresh free random byte
where none is pending (R7, R173; DESIGN CHOICE, logs 1 and 2). -/
def State.nextEvent (s : State) : Event × State :=
  match s.host with
  | [] => (.step (Config.randomByte s.draws), { s with draws := s.draws + 1 })
  | e :: es => (e, { s with host := es })

end Sys2Proof.Machine
end

