-- ==== Sys2Proof/Machine/Step.lean ====
section
/-! DEFINITION. One step: the host's next event. -/

namespace Sys2Proof.Machine

/-- The machine takes one event (R7). -/
def step (s : State) : Host.Outcome State Fault Refusal := perform s.nextEvent.1 s.nextEvent.2

/-- `s` with a table word stored where the very next step fetches and runs it (log 20). -/
def State.withFetchWord (s : State) (nbits w : Nat) : State :=
  s.readyToFetch.storeAtPc (bytesOfWord (tableWord nbits w))

end Sys2Proof.Machine
end

