-- ==== Sys2Proof/Safety.lean ====
section
/-! DEFINITION. What claims call a good state, a run without faults, and the end of a run (spec/10_state.md R39,
spec/60_exceptions.md R262, spec/70_reset_and_hazards.md R301). -/

namespace Sys2Proof.Machine

/-- "FSTAT = 0 is the premise 'no fault recorded' a claim about a program takes" (R34). -/
abbrev State.faultFree (s : State) : Prop := s.fstat = 0

/-- The machine takes a `Step` as an instruction: LOADED = 1 and HALTED = 0 (R120). -/
abbrev State.running (s : State) : Prop := s.loaded = true ∧ s.halted = false

/-- 0 ≤ PC ≤ 4095 (R23). -/
abbrev State.pcInRange (s : State) : Prop := s.pc.toNat ≤ 0xFFF

/-- HALTED = 1 implies STRICT = 1 and FSTAT ≠ 0 (R39). -/
abbrev State.haltJustified (s : State) : Prop := s.halted = true → s.strict = true ∧ s.fstat ≠ 0

/-- A counter is nonzero only if its FSTAT bit is set and STRICT = 0 (R39). -/
abbrev State.countersJustified (s : State) : Prop :=
  (s.sovfCnt ≠ 0 → s.fstat.getLsbD 1 = true ∧ s.strict = false) ∧
  (s.sunfCnt ≠ 0 → s.fstat.getLsbD 2 = true ∧ s.strict = false) ∧
  (s.unkCnt ≠ 0 → s.fstat.getLsbD 3 = true ∧ s.strict = false)

/-- Every slot in use holds a value in 2..0x1000 (R26). -/
abbrev State.slotsInRange (s : State) : Prop :=
  ∀ k : Fin 16, k.val < s.sp.val → 2 ≤ s.stk[k].toNat ∧ s.stk[k].toNat ≤ 0x1000

/-- The invariant: memory keeps its canonical form, and while LOADED = 1 the conditions of R23, R26 and R39 hold. The bounds
of SP, V, DT, ST and I in R39 are the fields' types. -/
abbrev State.Inv (s : State) : Prop :=
  s.mem.wf ∧
  (s.loaded = true → s.pcInRange ∧ s.haltJustified ∧ s.countersJustified ∧ s.slotsInRange)

/-- A jump to itself stands at PC (R301 (a)). -/
abbrev State.selfJump (s : State) : Prop :=
  s.pc.toNat ≤ 0xFFE ∧
  wordOfBytes (s.mem.read s.pc.toNat) (s.mem.read (s.pc.toNat + 1)) = 0x1000#16 ||| s.pc

/-- The end of a run as R301 offers it (the spec's decision D29). -/
abbrev State.final (s : State) : Prop := s.selfJump ∨ s.halted = true

/-! ### The terms of claims about results, faults, stores and draws, written from the rules and not from the model's operations -/

/-- The state before a step plus the record of a MemoryFault (R253). -/
def State.afterMemoryFault (s : State) : State :=
  { s with
    fstat := s.fstat ||| 0b0001#4
    halted := s.halted || s.strict
    reply := .stepped ⟨.fault .memoryFault, false, decide (0 < s.st.toNat)⟩ }

/-- The result of an instruction that executed normally, did not draw and left ST alone: code 0, `disp_changed` 0, `tone` as ST
gives it (R128). -/
def State.normalReply (s : State) : Reply := .stepped ⟨.none, false, decide (0 < s.st.toNat)⟩

/-- The FSTAT bit of a fault (R34). -/
def faultBit : StepFault → BitVec 4
  | .memoryFault => 0b0001
  | .stackOverflow => 0b0010
  | .stackUnderflow => 0b0100
  | .unknownOpcode => 0b1000

/-- One more, never past 0xFFFFFFFF (R35). -/
def oneMore (c : BitVec 32) : BitVec 32 := if c.toNat = 0xFFFFFFFF then c else c + 1#32

/-- The state before a step plus the record of a rejected instruction: PC past it, the fault's FSTAT bit, the fault's counter
(R127, R254 to R256). -/
def State.afterReject (s : State) (f : StepFault) : State :=
  { s with
    pc := s.pc + 2#16
    fstat := s.fstat ||| faultBit f
    sovfCnt := if f = .stackOverflow then oneMore s.sovfCnt else s.sovfCnt
    sunfCnt := if f = .stackUnderflow then oneMore s.sunfCnt else s.sunfCnt
    unkCnt := if f = .unknownOpcode then oneMore s.unkCnt else s.unkCnt
    reply := .stepped ⟨.fault f, false, decide (0 < s.st.toNat)⟩ }

/-- The state before a step plus the record of a strict halt: the fault's FSTAT bit and HALTED, no counter (R127, R258). -/
def State.afterStrictHalt (s : State) (f : StepFault) : State :=
  { s with
    fstat := s.fstat ||| faultBit f
    halted := true
    reply := .stepped ⟨.fault f, false, decide (0 < s.st.toNat)⟩ }

/-- The byte at an address once `bs` is stored at I, I + 1, … (R194, R195). -/
def State.byteAfterStore (s : State) (bs : List Byte) (a : Nat) : Byte :=
  if s.idx.toNat ≤ a ∧ a < s.idx.toNat + bs.length then bs[a - s.idx.toNat]?.getD 0 else s.mem.read a

/-- The bit a draw of `n` rows puts on the cell at row `r`, column `c`: bit 7 - (c - x0) of the byte at I + (r - y0) where the
sprite covers the cell, 0 elsewhere (R212). -/
def State.spriteBit (s : State) (x y : Reg) (n r c : Nat) : Bool :=
  let x0 := s.v[x].toNat % 64
  let y0 := s.v[y].toNat % 32
  decide (y0 ≤ r ∧ r < y0 + n ∧ x0 ≤ c ∧ c < x0 + 8) &&
    (s.mem.read (s.idx.toNat + (r - y0))).getLsbD (7 - (c - x0))

end Sys2Proof.Machine
end

