-- ==== Sys2Proof/Certificates/Slice0/Obligations.lean ====
section
/-! DEFINITION. The statements for the provers. A clause that the spec marks as its own decision or inference is named in the
docstring of the statement that rests on it, with its log entry. -/

open Sys2Proof Sys2Proof.Machine

/-! ### Encoding (spec/30_encoding.md) -/

/-- Words written out from the opcode map decode to their instructions, and some unknown words to none. -/
def Obligations.SampleWordsDecode : Prop :=
  decodeTableWord 16 0x00E0 = some .cls ∧
  decodeTableWord 16 0x00EE = some .ret ∧
  decodeTableWord 16 0x2300 = some (.call 0x300) ∧
  decodeTableWord 16 0x3005 = some (.seImm 0 5) ∧
  decodeTableWord 16 0x9230 = some (.sneReg 2 3) ∧
  decodeTableWord 16 0x8F1E = some (.shlReg 15 1) ∧
  decodeTableWord 16 0xB300 = some (.jpV0 0x300) ∧
  decodeTableWord 16 0xC3F0 = some (.rnd 3 0xF0) ∧
  decodeTableWord 16 0xD125 = some (.drw 1 2 5) ∧
  decodeTableWord 16 0xE0A1 = some (.sknp 0) ∧
  decodeTableWord 16 0xF265 = some (.loadRegs 2) ∧
  decodeTableWord 16 0x0000 = none ∧
  decodeTableWord 16 0x8128 = none ∧
  decodeTableWord 16 0xF1FF = none

/-- Decoding an encoded instruction gives it back, with every operand at every value, and the bytes after it. -/
def Obligations.DecodeInvertsEncode : Prop :=
  ∀ (i : Instr) (rest : List Byte), decode (encode i ++ rest) = .ok (i, rest)

/-- A word that decodes to an instruction is that instruction's word: no bit is dropped, so "no two distinct words are the
same instruction with the same operands" (the spec's inference in R98). -/
def Obligations.EncodeInvertsDecode : Prop :=
  ∀ (w : Word) (i : Instr), decodeWord w = .instr i → encodeWord i = w

/-- R92: the six fields of a word, and their overlap. -/
def Obligations.FieldsAreBitSlices : Prop :=
  ∀ w : Word,
    (Fields.ofWord w).op.toNat = w.toNat / 4096 ∧
    (Fields.ofWord w).x.toNat = w.toNat / 256 % 16 ∧
    (Fields.ofWord w).y.toNat = w.toNat / 16 % 16 ∧
    (Fields.ofWord w).n.toNat = w.toNat % 16 ∧
    (Fields.ofWord w).nn.toNat = w.toNat % 256 ∧
    (Fields.ofWord w).nnn.toNat = w.toNat % 4096 ∧
    (Fields.ofWord w).nn = (Fields.ofWord w).y ++ (Fields.ofWord w).n ∧
    (Fields.ofWord w).nnn = (Fields.ofWord w).x ++ (Fields.ofWord w).y ++ (Fields.ofWord w).n ∧
    w = wordOfBytes (w.extractLsb' 8 8) (Fields.ofWord w).nn

/-- The unknown words are those of R97's table. -/
def Obligations.UnknownWordsAreTheTables : Prop :=
  ∀ w : Word,
    (∃ why, decodeWord w = .unknown why) ↔
      (w.toNat / 4096 = 0x0 ∧ w.toNat ≠ 0x00E0 ∧ w.toNat ≠ 0x00EE) ∨
      (w.toNat / 4096 = 0x5 ∧ w.toNat % 16 ≠ 0) ∨
      (w.toNat / 4096 = 0x8 ∧ w.toNat % 16 ∈ [0x8, 0x9, 0xA, 0xB, 0xC, 0xD, 0xF]) ∨
      (w.toNat / 4096 = 0x9 ∧ w.toNat % 16 ≠ 0) ∨
      (w.toNat / 4096 = 0xE ∧ w.toNat % 256 ∉ [0x9E, 0xA1]) ∨
      (w.toNat / 4096 = 0xF ∧ w.toNat % 256 ∉ [0x07, 0x0A, 0x15, 0x18, 0x1E, 0x29, 0x33, 0x55, 0x65])

/-- The dispatcher and the map of R95 agree: at most one row selects a word, a decoded word is selected by its instruction's
row, and a word is unknown exactly where no row selects it. -/
def Obligations.RowsAgreeWithDispatch : Prop :=
  ∀ w : Word,
    (∀ r ∈ opcodeRows, ∀ r' ∈ opcodeRows, r.selects w = true → r'.selects w = true → r = r') ∧
    (∀ i, decodeWord w = .instr i → rowOf i ∈ opcodeRows ∧ (rowOf i).selects w = true) ∧
    ((∃ why, decodeWord w = .unknown why) ↔ ∀ r ∈ opcodeRows, r.selects w = false)

/-! ### The Step event (spec/40_step_and_dispatch.md) -/

/-- A step runs the decoded instruction. Where the next event is a `Step` of a running machine and the bytes at PC decode to
`i`, the step is `exec i`, on the state with the event taken off the list and its `rnd` latched. With no pending event the
model's convention is a `Step` with a free random byte (logs 1, 2); the byte order is the spec's decision D1 (log 8). -/
def Obligations.StepRunsDecodedInstruction : Prop :=
  ∀ (s : State) (i : Instr), s.loaded = true → s.halted = false → s.pc.toNat ≤ 0xFFE →
    decodeWord (wordOfBytes (s.mem.read s.pc.toNat) (s.mem.read (s.pc.toNat + 1))) = .instr i →
    (∀ rnd es, s.host = .step rnd :: es → Machine.step s = Machine.exec i { s with rnd := rnd, host := es }) ∧
    (s.host = [] →
      Machine.step s = Machine.exec i { s with rnd := Config.randomByte s.draws, draws := s.draws + 1 })

/-- At PC > 0xFFE nothing is fetched and the step is a MemoryFault (R121): it sets FSTAT[0], sets HALTED where STRICT = 1,
answers code 1, and leaves PC, every register, memory, the display, the stack and the timers as they were, which is the spec's
decision D4 (log 9). Else the two bytes at PC and PC + 1 are fetched, the first as the high byte, which is the spec's decision
D1 (log 8). -/
def Obligations.FetchReadsTwoBytesOrFaults : Prop :=
  ∀ s : State,
    (s.pc.toNat ≤ 0xFFE →
      s.fetch = some [s.mem.read s.pc.toNat, s.mem.read (s.pc.toNat + 1)] ∧
      ∀ hi lo : Byte, (wordOfBytes hi lo).toNat = 256 * hi.toNat + lo.toNat) ∧
    (0xFFE < s.pc.toNat → s.fetch = none ∧
      ∀ rnd es, s.loaded = true → s.halted = false → s.host = .step rnd :: es →
        Machine.step s = .next ({ s with rnd := rnd, host := es } : State).afterMemoryFault)

/-- A `Step` at an unknown word is a no-op that records UnknownOpcode: with STRICT = 0 it moves PC by 2 and counts, with
STRICT = 1 it halts, and at 0xFFE it is a MemoryFault instead. The policy, the counter, the strict halt and the priority are
the spec's decisions D6, D7, D9, D22 (logs 9, 10). -/
def Obligations.UnknownWordIsRejected : Prop :=
  ∀ (s : State) (why : Reject) (rnd : Byte) (es : List Event), s.loaded = true → s.halted = false →
    s.pc.toNat ≤ 0xFFE → s.host = .step rnd :: es →
    decodeWord (wordOfBytes (s.mem.read s.pc.toNat) (s.mem.read (s.pc.toNat + 1))) = .unknown why →
    (s.pc.toNat ≤ 0xFFD → s.strict = false →
      Machine.step s = .next { s with
        rnd := rnd, host := es, pc := s.pc + 2#16, fstat := s.fstat ||| 0b1000#4
        unkCnt := if s.unkCnt.toNat = 0xFFFFFFFF then s.unkCnt else s.unkCnt + 1#32
        reply := .stepped ⟨.fault .unknownOpcode, false, decide (0 < s.st.toNat)⟩ }) ∧
    (s.pc.toNat ≤ 0xFFD → s.strict = true →
      Machine.step s = .next { s with
        rnd := rnd, host := es, halted := true, fstat := s.fstat ||| 0b1000#4
        reply := .stepped ⟨.fault .unknownOpcode, false, decide (0 < s.st.toNat)⟩ }) ∧
    (s.pc.toNat = 0xFFE →
      Machine.step s = .next ({ s with rnd := rnd, host := es } : State).afterMemoryFault)

/-- While LOADED = 0, `Step`, `Tick` and `SetKeys` have no transition, and the model refuses them by name; no read-only port
answers: spec decisions (D20, D33), the refusal and the silent ports being the model's form (log 5). That an empty list of
events is such a `Step`, and so is refused too, is the model's own convention (log 1). -/
def Obligations.NotLoadedRefusesAllButLoad : Prop :=
  ∀ s : State, s.loaded = false →
    (∀ e es, s.host = e :: es → (∀ rom font strict, e ≠ .load rom font strict) →
      Machine.step s = .refused .notLoaded) ∧
    (s.host = [] → Machine.step s = .refused .notLoaded) ∧
    (∀ rom font strict es, s.host = .load rom font strict :: es → ∃ t, Machine.step s = .next t) ∧
    s.snapshot = none ∧ s.tonePort = none ∧ s.diagnostics = none

/-- Every instruction answers a next state, by the cases of R127 that an instruction can come to: a normal commit, which
records no fault; a MemoryFault; a rejected instruction, with f's FSTAT bit set and f's counter alone one more, saturating; or a
strict halt, with f's FSTAT bit set and no counter moved. A rejection is a call on a full stack or a return on an empty one.
None writes KEY, LOADED, STRICT or the model's own inputs. The cases are the spec's decisions D4, D6, D7, D8, D9, the result's
`tone` its D31 (logs 9, 10, 14). -/
def Obligations.InstructionCommitsOneOfFourCases : Prop :=
  ∀ (i : Instr) (s : State), ∃ t, Machine.exec i s = .next t ∧
    t.key = s.key ∧ t.loaded = s.loaded ∧ t.strict = s.strict ∧
    t.rnd = s.rnd ∧ t.draws = s.draws ∧ t.host = s.host ∧
    ((∃ d, t.reply = .stepped ⟨.none, d, decide (0 < t.st.toNat)⟩ ∧ t.pc.toNat ≤ 0xFFF ∧ t.fstat = s.fstat ∧
        t.halted = s.halted ∧ t.unkCnt = s.unkCnt ∧ t.sovfCnt = s.sovfCnt ∧ t.sunfCnt = s.sunfCnt) ∨
      t = s.afterMemoryFault ∨
      (s.pc.toNat ≤ 0xFFD ∧
        ∃ f, ((f = .stackOverflow ∧ s.sp.val = 16 ∧ ∃ nnn, i = .call nnn) ∨
            (f = .stackUnderflow ∧ s.sp.val = 0 ∧ i = .ret)) ∧
          ((s.strict = false ∧ t = s.afterReject f) ∨ (s.strict = true ∧ t = s.afterStrictHalt f))))

/-- A step that reports MemoryFault, raised by an instruction or by the fetch, leaves the state as it was plus the fault record:
no register, byte, cell, slot or timer changes and PC stays. A spec decision (D4, log 9); the latch of `rnd` is the model's
(log 2). -/
def Obligations.MemoryFaultIsPrecise : Prop :=
  (∀ (i : Instr) (s t : State) (d b : Bool), Machine.exec i s = .next t →
    t.reply = .stepped ⟨.fault .memoryFault, d, b⟩ → t = s.afterMemoryFault) ∧
  (∀ (rnd : Byte) (s t : State) (d b : Bool), perform (.step rnd) s = .next t →
    t.reply = .stepped ⟨.fault .memoryFault, d, b⟩ → t = ({ s with rnd := rnd } : State).afterMemoryFault)

/-- The final PC check: an instruction whose next PC would exceed 0xFFF is a MemoryFault. Spec decisions (D5, D22, D34;
logs 9, 11); the key that `Ex9E` and `ExA1` test is its decision D11 (log 13). -/
def Obligations.FinalPcCheckFaults : Prop :=
  ∀ s : State,
    (∀ i : Instr, 0xFFD < s.pc.toNat → i ≠ .ret → (∀ nnn, i ≠ .jp nnn ∧ i ≠ .call nnn ∧ i ≠ .jpV0 nnn) →
      (∀ x, i = .ldVxK x → s.key ≠ 0) → Machine.exec i s = .next s.afterMemoryFault) ∧
    (∀ x y : Reg, 0xFFB < s.pc.toNat → s.v[x] = s.v[y] → Machine.exec (.seReg x y) s = .next s.afterMemoryFault) ∧
    (∀ x y : Reg, 0xFFB < s.pc.toNat → s.v[x] ≠ s.v[y] → Machine.exec (.sneReg x y) s = .next s.afterMemoryFault) ∧
    (∀ (x : Reg) (nn : Byte), 0xFFB < s.pc.toNat → s.v[x] = nn →
      Machine.exec (.seImm x nn) s = .next s.afterMemoryFault) ∧
    (∀ (x : Reg) (nn : Byte), 0xFFB < s.pc.toNat → s.v[x] ≠ nn →
      Machine.exec (.sneImm x nn) s = .next s.afterMemoryFault) ∧
    (∀ x : Reg, 0xFFB < s.pc.toNat → s.key.getLsbD (s.v[x].toNat % 16) = true →
      Machine.exec (.skp x) s = .next s.afterMemoryFault) ∧
    (∀ x : Reg, 0xFFB < s.pc.toNat → s.key.getLsbD (s.v[x].toNat % 16) = false →
      Machine.exec (.sknp x) s = .next s.afterMemoryFault) ∧
    (∀ nnn : Addr, 0xFFF < nnn.toNat + s.v[V0].toNat → Machine.exec (.jpV0 nnn) s = .next s.afterMemoryFault) ∧
    (∀ k : Fin 16, s.sp.val = k.val + 1 → 0xFFF < s.stk[k].toNat →
      Machine.exec .ret s = .next s.afterMemoryFault) ∧
    (0xFFD < s.pc.toNat → s.sp.val = 0 → Machine.exec .ret s = .next s.afterMemoryFault) ∧
    (∀ nnn : Addr, 0xFFD < s.pc.toNat → s.sp.val = 16 → Machine.exec (.call nnn) s = .next s.afterMemoryFault)

/-! ### Control transfer (spec/41_control_flow.md) -/

/-- R143: `1nnn` sets PC to nnn and changes nothing else; it cannot fail the final PC check. -/
def Obligations.JumpSetsPc : Prop :=
  ∀ (nnn : Addr) (s : State),
    decodeTableWord 16 (0x1000 + nnn.toNat) = some (.jp nnn) ∧
    ∃ b, Machine.exec (.jp nnn) s =
      .next { s with pc := nnn.setWidth 16, reply := .stepped ⟨.none, false, b⟩ }

/-- `2nnn` with SP < 16 pushes a + 2 and jumps; on a full stack it is rejected, or halts a strict machine. The rejection, the
counter and the halt are the spec's decisions D6, D7, D9 (log 10), the result's `disp_changed` and `tone` its D15 and D31 (log
14). -/
def Obligations.CallPushesReturnAddress : Prop :=
  ∀ (nnn : Addr) (s : State),
    decodeTableWord 16 (0x2000 + nnn.toNat) = some (.call nnn) ∧
    (∀ k : Fin 16, s.sp.val = k.val →
      ∃ t, Machine.exec (.call nnn) s = .next t ∧ t.stk[k] = s.pc + 2#16 ∧ (∀ j : Fin 16, j ≠ k → t.stk[j] = s.stk[j]) ∧
        t.sp.val = s.sp.val + 1 ∧
        t = { s with stk := t.stk, sp := t.sp, pc := nnn.setWidth 16, reply := s.normalReply }) ∧
    (s.sp.val = 16 → s.pc.toNat ≤ 0xFFD → s.strict = false →
      Machine.exec (.call nnn) s = .next { s with
        pc := s.pc + 2#16, fstat := s.fstat ||| 0b0010#4
        sovfCnt := if s.sovfCnt.toNat = 0xFFFFFFFF then s.sovfCnt else s.sovfCnt + 1#32
        reply := .stepped ⟨.fault .stackOverflow, false, decide (0 < s.st.toNat)⟩ }) ∧
    (s.sp.val = 16 → s.pc.toNat ≤ 0xFFD → s.strict = true →
      Machine.exec (.call nnn) s = .next { s with
        halted := true, fstat := s.fstat ||| 0b0010#4
        reply := .stepped ⟨.fault .stackOverflow, false, decide (0 < s.st.toNat)⟩ })

/-- `00EE` with SP > 0 pops the last pushed slot into PC and leaves the slots' bits; on an empty stack it is rejected, or
halts a strict machine. The rejection, the counter and the halt are the spec's decisions D6, D7, D9 (log 10), the result's
`disp_changed` and `tone` its D15 and D31 (log 14). -/
def Obligations.ReturnPopsIntoPc : Prop :=
  ∀ s : State,
    decodeTableWord 16 0x00EE = some .ret ∧
    (∀ k : Fin 16, s.sp.val = k.val + 1 → s.stk[k].toNat ≤ 0xFFF →
      ∃ t, Machine.exec .ret s = .next t ∧ t.sp.val = k.val ∧
        t = { s with sp := t.sp, pc := s.stk[k], reply := s.normalReply }) ∧
    (s.sp.val = 0 → s.pc.toNat ≤ 0xFFD → s.strict = false →
      Machine.exec .ret s = .next { s with
        pc := s.pc + 2#16, fstat := s.fstat ||| 0b0100#4
        sunfCnt := if s.sunfCnt.toNat = 0xFFFFFFFF then s.sunfCnt else s.sunfCnt + 1#32
        reply := .stepped ⟨.fault .stackUnderflow, false, decide (0 < s.st.toNat)⟩ }) ∧
    (s.sp.val = 0 → s.pc.toNat ≤ 0xFFD → s.strict = true →
      Machine.exec .ret s = .next { s with
        halted := true, fstat := s.fstat ||| 0b0100#4
        reply := .stepped ⟨.fault .stackUnderflow, false, decide (0 < s.st.toNat)⟩ })

/-- R144, R145: the skips that compare a register with nn, taken and not taken; nothing but PC changes;
the result's `disp_changed` and `tone` are the
spec's decisions D15 and D31 (log 14). -/
def Obligations.SkipOnImmediate : Prop :=
  ∀ (x : Reg) (nn : Byte) (s : State),
    decodeTableWord 16 (0x3000 + 256 * x.val + nn.toNat) = some (.seImm x nn) ∧
    decodeTableWord 16 (0x4000 + 256 * x.val + nn.toNat) = some (.sneImm x nn) ∧
    (s.v[x] = nn → s.pc.toNat ≤ 0xFFB →
      Machine.exec (.seImm x nn) s = .next { s with pc := s.pc + 4#16, reply := s.normalReply }) ∧
    (s.v[x] ≠ nn → s.pc.toNat ≤ 0xFFD →
      Machine.exec (.seImm x nn) s = .next { s with pc := s.pc + 2#16, reply := s.normalReply }) ∧
    (s.v[x] ≠ nn → s.pc.toNat ≤ 0xFFB →
      Machine.exec (.sneImm x nn) s = .next { s with pc := s.pc + 4#16, reply := s.normalReply }) ∧
    (s.v[x] = nn → s.pc.toNat ≤ 0xFFD →
      Machine.exec (.sneImm x nn) s = .next { s with pc := s.pc + 2#16, reply := s.normalReply })

/-- R146, R148: the skips that compare two registers, taken and not taken; nothing but PC changes; the
result's `disp_changed` and `tone` are the spec's decisions D15 and D31 (log 14). -/
def Obligations.SkipOnRegister : Prop :=
  ∀ (x y : Reg) (s : State),
    decodeTableWord 16 (0x5000 + 256 * x.val + 16 * y.val) = some (.seReg x y) ∧
    decodeTableWord 16 (0x9000 + 256 * x.val + 16 * y.val) = some (.sneReg x y) ∧
    (s.v[x] = s.v[y] → s.pc.toNat ≤ 0xFFB →
      Machine.exec (.seReg x y) s = .next { s with pc := s.pc + 4#16, reply := s.normalReply }) ∧
    (s.v[x] ≠ s.v[y] → s.pc.toNat ≤ 0xFFD →
      Machine.exec (.seReg x y) s = .next { s with pc := s.pc + 2#16, reply := s.normalReply }) ∧
    (s.v[x] ≠ s.v[y] → s.pc.toNat ≤ 0xFFB →
      Machine.exec (.sneReg x y) s = .next { s with pc := s.pc + 4#16, reply := s.normalReply }) ∧
    (s.v[x] = s.v[y] → s.pc.toNat ≤ 0xFFD →
      Machine.exec (.sneReg x y) s = .next { s with pc := s.pc + 2#16, reply := s.normalReply })

/-- `Bnnn` sets PC to the natural-number sum nnn + V0 where it stays in 0..4095. A spec decision (D34, log 11), as
are the result's `disp_changed` and `tone` (D15, D31; log 14). -/
def Obligations.JumpWithOffsetAddsV0 : Prop :=
  ∀ (nnn : Addr) (s : State),
    decodeTableWord 16 (0xB000 + nnn.toNat) = some (.jpV0 nnn) ∧
    (nnn.toNat + s.v[V0].toNat ≤ 0xFFF →
      ∃ t, Machine.exec (.jpV0 nnn) s = .next t ∧ t.pc.toNat = nnn.toNat + s.v[V0].toNat ∧
        t = { s with pc := t.pc, reply := .stepped ⟨.none, false, decide (0 < s.st.toNat)⟩ })

/-- A call and the return at its target, in two steps: PC is the address after the call and the depth is as before (the
spec's inference R149). With no pending event each step is a `Step` (log 1). -/
def Obligations.CallThenReturnComesBack : Prop :=
  ∀ (s : State) (nnn : Addr), s.loaded = true → s.halted = false → s.host = [] → s.pc.toNat ≤ 0xFFD →
    nnn.toNat ≤ 0xFFE → s.sp.val < 16 →
    decodeWord (wordOfBytes (s.mem.read s.pc.toNat) (s.mem.read (s.pc.toNat + 1))) = .instr (.call nnn) →
    decodeWord (wordOfBytes (s.mem.read nnn.toNat) (s.mem.read (nnn.toNat + 1))) = .instr .ret →
    ∃ t u, Machine.step s = .next t ∧ t.pc = nnn.setWidth 16 ∧ t.sp.val = s.sp.val + 1 ∧
      Machine.step t = .next u ∧ u.pc = s.pc + 2#16 ∧ u.sp = s.sp ∧
      u.v = s.v ∧ u.idx = s.idx ∧ u.mem = s.mem ∧ u.disp = s.disp

/-- No control transfer writes a V register, I, DT, ST, DISP or MEM, whatever its outcome (R140). -/
def Obligations.ControlTransferFrame : Prop :=
  ∀ (i : Instr) (s t : State),
    (i = .ret ∨ (∃ nnn, i = .jp nnn ∨ i = .call nnn ∨ i = .jpV0 nnn) ∨ (∃ x nn, i = .seImm x nn ∨ i = .sneImm x nn) ∨
      (∃ x y, i = .seReg x y ∨ i = .sneReg x y)) →
    Machine.exec i s = .next t →
    t.v = s.v ∧ t.idx = s.idx ∧ t.dt = s.dt ∧ t.st = s.st ∧ t.disp = s.disp ∧ t.mem = s.mem

/-! ### Registers and ALU (spec/42_register_alu.md) -/

/-- R161, R162: load and add of an immediate; VF is not written as a flag and nothing but Vx and PC changes;
the result's `disp_changed` and `tone` are the
spec's decisions D15 and D31 (log 14). -/
def Obligations.LoadAndAddImmediate : Prop :=
  ∀ (x : Reg) (nn : Byte) (s : State), s.pc.toNat ≤ 0xFFD →
    decodeTableWord 16 (0x6000 + 256 * x.val + nn.toNat) = some (.ldImm x nn) ∧
    decodeTableWord 16 (0x7000 + 256 * x.val + nn.toNat) = some (.addImm x nn) ∧
    (Machine.exec (.ldImm x nn) s =
      .next { s with v := s.v.set x nn, pc := s.pc + 2#16, reply := s.normalReply }) ∧
    (Machine.exec (.addImm x nn) s =
      .next { s with v := s.v.set x (BitVec.ofNat 8 ((s.v[x].toNat + nn.toNat) % 256)), pc := s.pc + 2#16
                     reply := s.normalReply })

/-- R163: a register copy; nothing but Vx and PC changes; the result's `disp_changed` and `tone` are
the spec's decisions D15 and D31 (log 14). -/
def Obligations.RegisterCopy : Prop :=
  ∀ (x y : Reg) (s : State), s.pc.toNat ≤ 0xFFD →
    decodeTableWord 16 (0x8000 + 256 * x.val + 16 * y.val) = some (.ldReg x y) ∧
    Machine.exec (.ldReg x y) s =
      .next { s with v := s.v.set x s.v[y], pc := s.pc + 2#16, reply := s.normalReply }

/-- The three logic instructions, bit by bit; VF is not written as a flag, which is the spec's decision D28 (log 12); the
result's `disp_changed` and `tone` are its decisions D15 and D31 (log 14). -/
def Obligations.LogicIsBitwiseWithoutFlag : Prop :=
  ∀ (x y : Reg) (s : State), s.pc.toNat ≤ 0xFFD →
    decodeTableWord 16 (0x8001 + 256 * x.val + 16 * y.val) = some (.orReg x y) ∧
    decodeTableWord 16 (0x8002 + 256 * x.val + 16 * y.val) = some (.andReg x y) ∧
    decodeTableWord 16 (0x8003 + 256 * x.val + 16 * y.val) = some (.xorReg x y) ∧
    (∃ t, Machine.exec (.orReg x y) s = .next t ∧
      (∀ k, t.v[x].getLsbD k = (s.v[x].getLsbD k || s.v[y].getLsbD k)) ∧
      t = { s with v := s.v.set x t.v[x], pc := s.pc + 2#16, reply := s.normalReply }) ∧
    (∃ t, Machine.exec (.andReg x y) s = .next t ∧
      (∀ k, t.v[x].getLsbD k = (s.v[x].getLsbD k && s.v[y].getLsbD k)) ∧
      t = { s with v := s.v.set x t.v[x], pc := s.pc + 2#16, reply := s.normalReply }) ∧
    (∃ t, Machine.exec (.xorReg x y) s = .next t ∧
      (∀ k, t.v[x].getLsbD k = (s.v[x].getLsbD k ^^ s.v[y].getLsbD k)) ∧
      t = { s with v := s.v.set x t.v[x], pc := s.pc + 2#16, reply := s.normalReply })

/-- R168: the sum modulo 256 in Vx and the carry in VF, which is written after Vx. The result's
`disp_changed` and `tone` are the spec's decisions D15 and D31 (log 14). -/
def Obligations.AddSetsCarry : Prop :=
  ∀ (x y : Reg) (s : State), s.pc.toNat ≤ 0xFFD →
    decodeTableWord 16 (0x8004 + 256 * x.val + 16 * y.val) = some (.addReg x y) ∧
    ∃ t, Machine.exec (.addReg x y) s = .next t ∧
      t.v[VF] = (if s.v[x].toNat + s.v[y].toNat > 255 then 1#8 else 0#8) ∧
      (x ≠ VF → t.v[x].toNat = (s.v[x].toNat + s.v[y].toNat) % 256) ∧
      (∀ k : Reg, k ≠ x → k ≠ VF → t.v[k] = s.v[k]) ∧
      t = { s with v := t.v, pc := s.pc + 2#16, reply := s.normalReply }

/-- R169, R171: the two subtractions modulo 256, and VF = 1 exactly when the minuend is strictly greater; VF is written after
Vx. The result's `disp_changed` and `tone` are the spec's decisions D15 and D31 (log 14). -/
def Obligations.SubtractSetsStrictFlag : Prop :=
  ∀ (x y : Reg) (s : State), s.pc.toNat ≤ 0xFFD →
    decodeTableWord 16 (0x8005 + 256 * x.val + 16 * y.val) = some (.subReg x y) ∧
    decodeTableWord 16 (0x8007 + 256 * x.val + 16 * y.val) = some (.subnReg x y) ∧
    (∃ t, Machine.exec (.subReg x y) s = .next t ∧
      t.v[VF] = (if s.v[x].toNat > s.v[y].toNat then 1#8 else 0#8) ∧
      (x ≠ VF → t.v[x].toNat = (s.v[x].toNat + 256 - s.v[y].toNat) % 256) ∧
      (∀ k : Reg, k ≠ x → k ≠ VF → t.v[k] = s.v[k]) ∧
      t = { s with v := t.v, pc := s.pc + 2#16, reply := s.normalReply }) ∧
    (∃ t, Machine.exec (.subnReg x y) s = .next t ∧
      t.v[VF] = (if s.v[y].toNat > s.v[x].toNat then 1#8 else 0#8) ∧
      (x ≠ VF → t.v[x].toNat = (s.v[y].toNat + 256 - s.v[x].toNat) % 256) ∧
      (∀ k : Reg, k ≠ x → k ≠ VF → t.v[k] = s.v[k]) ∧
      t = { s with v := t.v, pc := s.pc + 2#16, reply := s.normalReply })

/-- The shifts of Vy by one bit, VF written first and Vx second, so that with x = F VF ends as the shifted value. The source
register and the write order are the spec's decisions D18 and D19 (log 12), the result's
`disp_changed` and `tone` its D15 and D31 (log 14). -/
def Obligations.ShiftsReadVy : Prop :=
  ∀ (x y : Reg) (s : State), s.pc.toNat ≤ 0xFFD →
    decodeTableWord 16 (0x8006 + 256 * x.val + 16 * y.val) = some (.shrReg x y) ∧
    decodeTableWord 16 (0x800E + 256 * x.val + 16 * y.val) = some (.shlReg x y) ∧
    (∃ t, Machine.exec (.shrReg x y) s = .next t ∧
      t.v[x].toNat = s.v[y].toNat / 2 ∧
      (x ≠ VF → t.v[VF].toNat = s.v[y].toNat % 2) ∧
      (∀ k : Reg, k ≠ x → k ≠ VF → t.v[k] = s.v[k]) ∧
      t = { s with v := t.v, pc := s.pc + 2#16, reply := s.normalReply }) ∧
    (∃ t, Machine.exec (.shlReg x y) s = .next t ∧
      t.v[x].toNat = 2 * s.v[y].toNat % 256 ∧
      (x ≠ VF → t.v[VF].toNat = s.v[y].toNat / 128) ∧
      (∀ k : Reg, k ≠ x → k ≠ VF → t.v[k] = s.v[k]) ∧
      t = { s with v := t.v, pc := s.pc + 2#16, reply := s.normalReply })

/-- `Cxnn` puts the step's random byte masked by nn in Vx, whatever that byte is. A spec decision (D10); the latch `rnd` is
the model's (log 2), and the result's `disp_changed` and `tone` are the spec's decisions D15 and D31 (log 14). -/
def Obligations.RandomIsMasked : Prop :=
  ∀ (x : Reg) (nn : Byte) (s : State), s.pc.toNat ≤ 0xFFD →
    decodeTableWord 16 (0xC000 + 256 * x.val + nn.toNat) = some (.rnd x nn) ∧
    ∃ t, Machine.exec (.rnd x nn) s = .next t ∧
      (∀ k, t.v[x].getLsbD k = (s.rnd.getLsbD k && nn.getLsbD k)) ∧
      (∀ k : Reg, k ≠ x → t.v[k] = s.v[k]) ∧
      t = { s with v := t.v, pc := s.pc + 2#16, reply := s.normalReply }

/-- VF is written only by the five arithmetic and shift instructions, by `Dxyn`, or as a destination named F (R21). -/
def Obligations.OnlyFlagWritersTouchVF : Prop :=
  ∀ (i : Instr) (s t : State), Machine.exec i s = .next t → t.v[VF] ≠ s.v[VF] →
    (∃ x y, i = .addReg x y ∨ i = .subReg x y ∨ i = .shrReg x y ∨ i = .subnReg x y ∨ i = .shlReg x y) ∨
    (∃ x y n, i = .drw x y n) ∨
    (∃ nn, i = .ldImm VF nn ∨ i = .addImm VF nn ∨ i = .rnd VF nn) ∨
    (∃ y, i = .ldReg VF y ∨ i = .orReg VF y ∨ i = .andReg VF y ∨ i = .xorReg VF y) ∨
    i = .ldVxDT VF ∨ i = .ldVxK VF ∨ i = .loadRegs VF

/-! ### Index and memory (spec/43_index_memory.md) -/

/-- R191: `Annn` sets I to nnn and changes nothing else but PC; the result's `disp_changed` and `tone` are the
spec's decisions D15 and D31 (log 14). -/
def Obligations.LoadIndexImmediate : Prop :=
  ∀ (nnn : Addr) (s : State), s.pc.toNat ≤ 0xFFD →
    decodeTableWord 16 (0xA000 + nnn.toNat) = some (.ldI nnn) ∧
    Machine.exec (.ldI nnn) s =
      .next { s with idx := nnn.setWidth 16, pc := s.pc + 2#16, reply := s.normalReply }

/-- `Fx1E` adds modulo 65536 without a mask and without a flag, and `Fx29` forms the glyph address of the low nibble. Spec
decisions (D3, D13, D35; logs 11, 15), as are the result's `disp_changed` and `tone` (D15, D31; log 14). -/
def Obligations.IndexArithmetic : Prop :=
  ∀ (x : Reg) (s : State), s.pc.toNat ≤ 0xFFD →
    decodeTableWord 16 (0xF01E + 256 * x.val) = some (.addI x) ∧
    decodeTableWord 16 (0xF029 + 256 * x.val) = some (.ldF x) ∧
    (∃ t, Machine.exec (.addI x) s = .next t ∧ t.idx.toNat = (s.idx.toNat + s.v[x].toNat) % 65536 ∧
      t = { s with idx := t.idx, pc := s.pc + 2#16, reply := s.normalReply }) ∧
    (∃ t, Machine.exec (.ldF x) s = .next t ∧ t.idx.toNat = 0x050 + 5 * (s.v[x].toNat % 16) ∧
      t = { s with idx := t.idx, pc := s.pc + 2#16, reply := s.normalReply })

/-- R194: the three decimal digits of Vx at I, I+1, I+2, every other byte as before; with I > 4093 a MemoryFault and
nothing else done, which is the spec's decision D4 (log 9). The result's `disp_changed` and `tone` are its decisions D15 and
D31 (log 14). -/
def Obligations.BcdStoresDigits : Prop :=
  ∀ (x : Reg) (s : State), s.mem.wf → s.pc.toNat ≤ 0xFFD →
    decodeTableWord 16 (0xF033 + 256 * x.val) = some (.ldB x) ∧
    (s.idx.toNat + 2 ≤ 4095 →
      ∃ t, Machine.exec (.ldB x) s = .next t ∧
        (t.mem.read s.idx.toNat).toNat = s.v[x].toNat / 100 ∧
        (t.mem.read (s.idx.toNat + 1)).toNat = s.v[x].toNat / 10 % 10 ∧
        (t.mem.read (s.idx.toNat + 2)).toNat = s.v[x].toNat % 10 ∧
        (∀ a, a < s.idx.toNat ∨ s.idx.toNat + 2 < a → t.mem.read a = s.mem.read a) ∧
        t = { s with mem := t.mem, pc := s.pc + 2#16, reply := s.normalReply }) ∧
    (4095 < s.idx.toNat + 2 →
      Machine.exec (.ldB x) s = .next s.afterMemoryFault)

/-- R195: V0..Vx at I..I+x, every other byte as before, I and the registers unchanged; with I + x > 4095 a MemoryFault
and nothing else done, which is the spec's decision D4 (log 9). The result's `disp_changed` and `tone` are its decisions D15 and
D31 (log 14). -/
def Obligations.StoreRegistersToMemory : Prop :=
  ∀ (x : Reg) (s : State), s.mem.wf → s.pc.toNat ≤ 0xFFD →
    decodeTableWord 16 (0xF055 + 256 * x.val) = some (.storeRegs x) ∧
    (s.idx.toNat + x.val ≤ 4095 →
      ∃ t, Machine.exec (.storeRegs x) s = .next t ∧
        (∀ k : Reg, k.val ≤ x.val → t.mem.read (s.idx.toNat + k.val) = s.v[k]) ∧
        (∀ a, a < s.idx.toNat ∨ s.idx.toNat + x.val < a → t.mem.read a = s.mem.read a) ∧
        t = { s with mem := t.mem, pc := s.pc + 2#16, reply := s.normalReply }) ∧
    (4095 < s.idx.toNat + x.val →
      Machine.exec (.storeRegs x) s = .next s.afterMemoryFault)

/-- R196: V0..Vx from I..I+x, the other registers, I and memory unchanged; with I + x > 4095 a MemoryFault and
nothing else done, which is the spec's decision D4 (log 9). The result's `disp_changed` and `tone` are its decisions D15 and
D31 (log 14). -/
def Obligations.LoadRegistersFromMemory : Prop :=
  ∀ (x : Reg) (s : State), s.pc.toNat ≤ 0xFFD →
    decodeTableWord 16 (0xF065 + 256 * x.val) = some (.loadRegs x) ∧
    (s.idx.toNat + x.val ≤ 4095 →
      ∃ t, Machine.exec (.loadRegs x) s = .next t ∧
        (∀ k : Reg, k.val ≤ x.val → t.v[k] = s.mem.read (s.idx.toNat + k.val)) ∧
        (∀ k : Reg, x.val < k.val → t.v[k] = s.v[k]) ∧
        t = { s with v := t.v, pc := s.pc + 2#16, reply := s.normalReply }) ∧
    (4095 < s.idx.toNat + x.val →
      Machine.exec (.loadRegs x) s = .next s.afterMemoryFault)

/-- The round trip: what `Fx55` stored, `Fx65` brings back, from any later state that still has the same I and the same bytes
there (the spec's inference R197). -/
def Obligations.StoreLoadRoundTrip : Prop :=
  ∀ (x : Reg) (s t u : State), s.mem.wf → s.pc.toNat ≤ 0xFFD → s.idx.toNat + x.val ≤ 4095 →
    Machine.exec (.storeRegs x) s = .next t →
    u.idx = t.idx → u.pc.toNat ≤ 0xFFD →
    (∀ k : Reg, k.val ≤ x.val → u.mem.read (t.idx.toNat + k.val) = t.mem.read (t.idx.toNat + k.val)) →
    ∃ w, Machine.exec (.loadRegs x) u = .next w ∧ ∀ k : Reg, k.val ≤ x.val → w.v[k] = s.v[k]

/-- A fetch right after `Fx55` or `Fx33`, at any PC, sees the stored bytes, and the earlier bytes elsewhere: with no fence
between, a program can write the instruction it executes next (the spec's inference R74). -/
def Obligations.StoreIsSeenByNextFetch : Prop :=
  ∀ (x : Reg) (s : State), s.mem.wf → s.pc.toNat ≤ 0xFFD →
    (s.idx.toNat + x.val ≤ 4095 →
      ∃ t, Machine.exec (.storeRegs x) s = .next t ∧ t.pc = s.pc + 2#16 ∧
        ∀ p : Word, p.toNat ≤ 0xFFE →
          ({ t with pc := p } : State).fetch =
            some [s.byteAfterStore ((List.range (x.val + 1)).map fun k => s.v[k]?.getD 0) p.toNat,
              s.byteAfterStore ((List.range (x.val + 1)).map fun k => s.v[k]?.getD 0) (p.toNat + 1)]) ∧
    (s.idx.toNat + 2 ≤ 4095 →
      ∃ t, Machine.exec (.ldB x) s = .next t ∧ t.pc = s.pc + 2#16 ∧
        ∀ p : Word, p.toNat ≤ 0xFFE →
          ({ t with pc := p } : State).fetch =
            some [s.byteAfterStore [s.v[x] / 100#8, s.v[x] / 10#8 % 10#8, s.v[x] % 10#8] p.toNat,
              s.byteAfterStore [s.v[x] / 100#8, s.v[x] / 10#8 % 10#8, s.v[x] % 10#8] (p.toNat + 1)])

/-- Which instructions can change which state: MEM by `Fx33` and `Fx55`; DISP by `00E0` and `Dxyn`; I by `Annn`, `Fx1E` and
`Fx29`; the stack by `2nnn` and `00EE`; DT by `Fx15`; ST by `Fx18`. The silence on I of the memory instructions is the spec's
decision D27 (log 11). -/
def Obligations.EachStateHasItsWriters : Prop :=
  ∀ (i : Instr) (s t : State), Machine.exec i s = .next t →
    ((∀ x, i ≠ .ldB x ∧ i ≠ .storeRegs x) → t.mem = s.mem) ∧
    (i ≠ .cls → (∀ x y n, i ≠ .drw x y n) → t.disp = s.disp) ∧
    ((∀ nnn, i ≠ .ldI nnn) → (∀ x, i ≠ .addI x ∧ i ≠ .ldF x) → t.idx = s.idx) ∧
    (i ≠ .ret → (∀ nnn, i ≠ .call nnn) → t.sp = s.sp ∧ t.stk = s.stk) ∧
    ((∀ x, i ≠ .ldDTVx x) → t.dt = s.dt) ∧
    ((∀ x, i ≠ .ldSTVx x) → t.st = s.st)

/-! ### Display (spec/44_display.md) -/

/-- `00E0` clears all 2048 cells and changes nothing else but PC; the step reports `disp_changed` and the `tone`, the spec's
decisions D15 and D31 (log 14). -/
def Obligations.ClearScreenClearsAll : Prop :=
  ∀ s : State, s.pc.toNat ≤ 0xFFD →
    decodeTableWord 16 0x00E0 = some .cls ∧
    ∃ t, Machine.exec .cls s = .next t ∧ (∀ r c, t.disp.cell r c = false) ∧
      t = { s with disp := t.disp, pc := s.pc + 2#16, reply := .stepped ⟨.none, true, decide (0 < s.st.toNat)⟩ }

/-- `Dxyn`, cell by cell: each cell is XORed with the sprite bit that covers it, bits outside the grid are discarded, VF = 1
exactly when a set cell was hit, and nothing else but PC changes; with a sprite byte above 4095 it is a MemoryFault. The bit
order, the clipping, the check of clipped rows, `disp_changed` and `tone` are the spec's decisions D12, D18, D26, D15, D31 (logs
12, 14), and that the fault leaves all else alone its D4 (log 9). -/
def Obligations.DrawXorsSpriteAndReportsCollision : Prop :=
  ∀ (x y : Reg) (n : Fin 16) (s : State), s.pc.toNat ≤ 0xFFD →
    decodeTableWord 16 (0xD000 + 256 * x.val + 16 * y.val + n.val) = some (.drw x y n) ∧
    ((n.val = 0 ∨ s.idx.toNat + n.val ≤ 4096) →
      ∃ t, Machine.exec (.drw x y n) s = .next t ∧
        (∀ r c, r < 32 → c < 64 → t.disp.cell r c = (s.disp.cell r c ^^ s.spriteBit x y n r c)) ∧
        (t.v[VF] = 0#8 ∨ t.v[VF] = 1#8) ∧
        (t.v[VF] = 1#8 ↔ ∃ r c, r < 32 ∧ c < 64 ∧ s.disp.cell r c = true ∧ s.spriteBit x y n r c = true) ∧
        (∀ k : Reg, k ≠ VF → t.v[k] = s.v[k]) ∧
        t = { s with v := t.v, disp := t.disp, pc := s.pc + 2#16
                     reply := .stepped ⟨.none, true, decide (0 < s.st.toNat)⟩ }) ∧
    (n.val ≠ 0 → 4096 < s.idx.toNat + n.val → Machine.exec (.drw x y n) s = .next s.afterMemoryFault)

/-- Drawing the same sprite at the same place twice restores the display, and VF then says whether the sprite had lit a cell
that was dark before (the spec's inference R215). -/
def Obligations.DrawTwiceRestores : Prop :=
  ∀ (x y : Reg) (n : Fin 16) (s t u : State), s.pc.toNat ≤ 0xFFB → x ≠ VF → y ≠ VF →
    (n.val = 0 ∨ s.idx.toNat + n.val ≤ 4096) →
    Machine.exec (.drw x y n) s = .next t → Machine.exec (.drw x y n) t = .next u →
    u.disp = s.disp ∧
    (u.v[VF] = 1#8 ↔ ∃ r c, r < 32 ∧ c < 64 ∧ s.disp.cell r c = false ∧ s.spriteBit x y n r c = true)

/-- Every step's result, of an instruction and of any `Step` event while LOADED = 1: `tone` is ST > 0 after the commit, and
`disp_changed` is 1 exactly when `00E0` or `Dxyn` committed without fault; so it is 0 at an unknown word, at a fetch that
faults and while HALTED = 1. Spec decisions (D15, D31; log 14), in the model's latch of the reply (log 7). -/
def Obligations.StepResultReportsToneAndDisplay : Prop :=
  (∀ (i : Instr) (s : State), ∃ t c d, Machine.exec i s = .next t ∧
    t.reply = .stepped ⟨c, d, decide (0 < t.st.toNat)⟩ ∧
    (d = true ↔ (i = .cls ∨ ∃ x y n, i = .drw x y n) ∧ c = .none)) ∧
  (∀ (rnd : Byte) (s : State), s.loaded = true → ∃ t c d, perform (.step rnd) s = .next t ∧
    t.reply = .stepped ⟨c, d, decide (0 < t.st.toNat)⟩ ∧
    (d = true ↔ c = .none ∧
      ∃ i, decodeWord (wordOfBytes (s.mem.read s.pc.toNat) (s.mem.read (s.pc.toNat + 1))) = .instr i ∧
        (i = .cls ∨ ∃ x y n, i = .drw x y n)))

/-! ### Keys and timers (spec/45_keys_timers.md) -/

/-- `Ex9E` and `ExA1` test the key of Vx's low nibble, which is the spec's decision D11 (log 13); nothing but PC changes;
the result's `disp_changed` and `tone` are the
spec's decisions D15 and D31 (log 14). -/
def Obligations.KeySkipsTestLowNibble : Prop :=
  ∀ (x : Reg) (s : State),
    decodeTableWord 16 (0xE09E + 256 * x.val) = some (.skp x) ∧
    decodeTableWord 16 (0xE0A1 + 256 * x.val) = some (.sknp x) ∧
    (s.key.getLsbD (s.v[x].toNat % 16) = true → s.pc.toNat ≤ 0xFFB →
      Machine.exec (.skp x) s = .next { s with pc := s.pc + 4#16, reply := s.normalReply }) ∧
    (s.key.getLsbD (s.v[x].toNat % 16) = false → s.pc.toNat ≤ 0xFFD →
      Machine.exec (.skp x) s = .next { s with pc := s.pc + 2#16, reply := s.normalReply }) ∧
    (s.key.getLsbD (s.v[x].toNat % 16) = false → s.pc.toNat ≤ 0xFFB →
      Machine.exec (.sknp x) s = .next { s with pc := s.pc + 4#16, reply := s.normalReply }) ∧
    (s.key.getLsbD (s.v[x].toNat % 16) = true → s.pc.toNat ≤ 0xFFD →
      Machine.exec (.sknp x) s = .next { s with pc := s.pc + 2#16, reply := s.normalReply })

/-- R233, R234: with no key pressed PC stays at the instruction and nothing changes; else Vx becomes the least pressed key and
PC moves on. Both are normal steps. -/
def Obligations.KeyWaitTakesLowestKey : Prop :=
  ∀ (x : Reg) (s : State),
    decodeTableWord 16 (0xF00A + 256 * x.val) = some (.ldVxK x) ∧
    (s.key = 0 → s.pc.toNat ≤ 0xFFF →
      ∃ b, Machine.exec (.ldVxK x) s = .next { s with reply := .stepped ⟨.none, false, b⟩ }) ∧
    (∀ k : Reg, s.key.getLsbD k.val = true → (∀ j : Reg, j.val < k.val → s.key.getLsbD j.val = false) → s.pc.toNat ≤ 0xFFD →
      ∃ b, Machine.exec (.ldVxK x) s =
        .next { s with v := s.v.set x (BitVec.ofNat 8 k.val), pc := s.pc + 2#16, reply := .stepped ⟨.none, false, b⟩ })

/-- R236, R237, R238: the timer instructions move one byte and change nothing else but PC; after `Fx18` the step's `tone`
already reflects the new ST. The result's `disp_changed` and `tone` are the spec's decisions D15 and D31 (log 14). -/
def Obligations.TimerInstructionsMoveOneByte : Prop :=
  ∀ (x : Reg) (s : State), s.pc.toNat ≤ 0xFFD →
    decodeTableWord 16 (0xF007 + 256 * x.val) = some (.ldVxDT x) ∧
    decodeTableWord 16 (0xF015 + 256 * x.val) = some (.ldDTVx x) ∧
    decodeTableWord 16 (0xF018 + 256 * x.val) = some (.ldSTVx x) ∧
    (Machine.exec (.ldVxDT x) s = .next { s with v := s.v.set x s.dt, pc := s.pc + 2#16, reply := s.normalReply }) ∧
    (Machine.exec (.ldDTVx x) s = .next { s with dt := s.v[x], pc := s.pc + 2#16, reply := s.normalReply }) ∧
    (Machine.exec (.ldSTVx x) s =
      .next { s with st := s.v[x], pc := s.pc + 2#16, reply := .stepped ⟨.none, false, decide (0 < s.v[x].toNat)⟩ })

/-- `Tick` counts both timers down to a floor of 0 and changes nothing else, also while HALTED = 1, which is the spec's
decision D23 (log 17). The reply and the list of events are the model's (logs 1, 7). -/
def Obligations.TickCountsBothTimersDown : Prop :=
  ∀ (s : State) (es : List Event), s.loaded = true → s.host = .tick :: es →
    ∃ t, Machine.step s = .next t ∧
      t.dt.toNat = s.dt.toNat - 1 ∧ t.st.toNat = s.st.toNat - 1 ∧
      t = { s with dt := t.dt, st := t.st, reply := .nothing, host := es }

/-- N ticks from DT = D leave max(0, D - N), and the same for ST. The property is the source's; that `Tick` works while
HALTED = 1 is the spec's decision D23 (log 17). -/
def Obligations.TicksDecayToZero : Prop :=
  ∀ (n : Nat) (s : State), s.loaded = true →
    ∃ t, performAll (List.replicate n .tick) s = .next t ∧
      t.dt.toNat = s.dt.toNat - n ∧ t.st.toNat = s.st.toNat - n ∧
      t = { s with dt := t.dt, st := t.st, reply := t.reply }

/-- R230: `SetKeys` overwrites the whole latch and changes nothing else, also while HALTED = 1; no instruction and no `Tick`
writes KEY. -/
def Obligations.SetKeysOverwritesLatch : Prop :=
  (∀ (s : State) (k : Word) (es : List Event), s.loaded = true → s.host = .setKeys k :: es →
    ∃ r, Machine.step s = .next { s with key := k, host := es, reply := r }) ∧
  (∀ (i : Instr) (s t : State), Machine.exec i s = .next t → t.key = s.key) ∧
  (∀ (s t : State), perform .tick s = .next t → t.key = s.key)

/-! ### Load, reset, faults and runs (spec/60_exceptions.md, spec/70_reset_and_hazards.md) -/

/-- A `Load` with a ROM of 1 to 3584 bytes puts the machine, from any state, in the state of R38, memory as in R61's map. The
zeros of V, I, KEY and of unloaded memory, and the form of STRICT, HALTED, FSTAT and the counters, are the spec's decisions
D7, D8, D9, D13, D14 (logs 6, 10, 15). Nothing is said of STK, which R38 leaves unspecified (log 4). -/
def Obligations.LoadResetsEverything : Prop :=
  ∀ (s : State) (rom : List Byte) (font : Option Font) (strict : Bool) (es : List Event),
    1 ≤ rom.length → rom.length ≤ 3584 → s.host = .load rom font strict :: es →
    ∃ t, Machine.step s = .next t ∧
      (∀ k : Reg, t.v[k] = 0#8) ∧ t.idx = 0#16 ∧ t.pc = 0x200#16 ∧ t.sp = 0 ∧ t.dt = 0#8 ∧ t.st = 0#8 ∧
      (∀ r c, t.disp.cell r c = false) ∧ t.key = 0#16 ∧
      (∀ k (h : k < 80), t.mem.read (0x050 + k) = (font.getD Config.defaultFont)[k]) ∧
      (∀ k (h : k < rom.length), t.mem.read (0x200 + k) = rom[k]) ∧
      (∀ a, a < 0x050 ∨ (0x0A0 ≤ a ∧ a < 0x200) ∨ (0x200 + rom.length ≤ a ∧ a ≤ 4095) → t.mem.read a = 0#8) ∧
      t.loaded = true ∧ t.strict = strict ∧ t.halted = false ∧ t.fstat = 0#4 ∧
      t.unkCnt = 0#32 ∧ t.sovfCnt = 0#32 ∧ t.sunfCnt = 0#32 ∧ t.tonePort = some false ∧ t.reply = .loadOk ∧ t.host = es

/-- `Load` returns LoadError for a ROM of no bytes or of more than 3584, and LOADED becomes 0 (R259). That the earlier machine
is gone is the spec's decision D33; that then every port answers nothing and every event but a `Load` is refused by name is the
model's form of it (log 5). -/
def Obligations.BadRomIsLoadError : Prop :=
  ∀ (s : State) (rom : List Byte) (font : Option Font) (strict : Bool) (es : List Event),
    s.host = .load rom font strict :: es → (rom.length = 0 ∨ 3584 < rom.length) →
    ∃ t, Machine.step s = .next t ∧ t.reply = .loadError ∧ t.loaded = false ∧
      t.snapshot = none ∧ t.tonePort = none ∧ t.diagnostics = none ∧
      ∀ e, (∀ rom' font' strict', e ≠ .load rom' font' strict') → perform e t = .refused .notLoaded

/-- The state after reset is the one R38 gives for the default font and STRICT = 0, PC at 0x200, and is what `Load` of one
zero byte makes of the power-on state. The choice of ROM, font and STRICT is the model's (log 3), and so are the zeros of STK,
which R38 leaves unspecified (log 4), the values at power-on (log 5), and the fields rnd, draws and reply (logs 2, 7), all of
which the last clause equates; the zeros of V, I, KEY and unloaded memory are the spec's decision D14 (log 6). -/
def Obligations.ResetIsStateAfterLoad : Prop :=
  State.reset.pc = 0x200#16 ∧ State.reset.sp = 0 ∧ State.reset.dt = 0#8 ∧ State.reset.st = 0#8 ∧
  State.reset.idx = 0#16 ∧ (∀ k : Reg, State.reset.v[k] = 0#8) ∧ State.reset.key = 0#16 ∧ State.reset.mem = [] ∧
  State.reset.loaded = true ∧ State.reset.strict = false ∧ State.reset.halted = false ∧ State.reset.fstat = 0#4 ∧
  State.powerOn.loaded = false ∧
  perform (.load [0#8] none false) State.powerOn = .next State.reset

/-- The state after reset meets the invariant. -/
def Obligations.ResetMeetsInvariant : Prop := State.reset.Inv

/-- From every state that meets the invariant every step, whatever event it takes, leads to one that meets it: PC stays in
0..4095, the stack's slots in 2..0x1000, HALTED and the counters are accounted for in FSTAT and STRICT, and memory keeps its
canonical form (the spec's inferences R26, R39; decision D5). -/
def Obligations.StepKeepsInvariant : Prop :=
  ∀ s t : State, s.Inv → Machine.step s = .next t → t.Inv

/-- A run over pending events is those events performed in order: the list in State is nothing but the host's order of
events (the model's form, log 1). -/
def Obligations.PendingEventsRunInOrder : Prop :=
  ∀ (es : List Event) (s : State),
    Host.Core.run Sys2Proof.core es.length { s with host := es } = performAll es { s with host := [] }

/-- Fault bits are sticky and STRICT and LOADED are constant between loads: no event but `Load` clears a bit of FSTAT, leaves
HALTED, or changes STRICT or LOADED. Spec decisions (D7, D8; log 10). -/
def Obligations.FaultRecordIsSticky : Prop :=
  ∀ (e : Event) (s t : State), (∀ rom font strict, e ≠ .load rom font strict) → perform e s = .next t →
    (∀ k, s.fstat.getLsbD k = true → t.fstat.getLsbD k = true) ∧ (s.halted = true → t.halted = true) ∧
    t.strict = s.strict ∧ t.loaded = s.loaded

/-- A halted machine: a `Step` changes nothing and answers code 5; `Tick` and `SetKeys` still act; only `Load` leaves the
state. A spec decision (D7, D23; logs 10, 17). -/
def Obligations.HaltedMachineAnswersHalted : Prop :=
  ∀ (e : Event) (s : State), s.loaded = true → s.halted = true → (∀ rom font strict, e ≠ .load rom font strict) →
    ∃ t, perform e s = .next t ∧ t.halted = true ∧
      t = { s with dt := t.dt, st := t.st, key := t.key, reply := t.reply } ∧
      (∀ rnd, e = .step rnd →
        t = { s with reply := .stepped ⟨.halted, false, decide (0 < s.st.toNat)⟩ } ∧ StepCode.halted.number = 5#3)

/-- A jump to itself is a fixed point: a `Step` there leaves the whole state unchanged, but for the model's own latch of
`rnd` and the reply. The end of a run is the spec's decision D29. -/
def Obligations.SelfJumpIsFixedPoint : Prop :=
  ∀ (s : State) (rnd : Byte), s.loaded = true → s.halted = false → s.selfJump →
    perform (.step rnd) s =
      .next { s with rnd := rnd, reply := .stepped ⟨.none, false, decide (0 < s.st.toNat)⟩ }

/-- A program cannot observe that a fault happened (R250): what an instruction does to everything but the diagnostic state
does not depend on FSTAT or the counters. -/
def Obligations.DiagnosticsAreInvisible : Prop :=
  ∀ (i : Instr) (s t t' : State) (f : BitVec 4) (a b c : BitVec 32), Machine.exec i s = .next t →
    Machine.exec i { s with fstat := f, unkCnt := a, sovfCnt := b, sunfCnt := c } = .next t' →
    t' = { t with fstat := t'.fstat, unkCnt := t'.unkCnt, sovfCnt := t'.sovfCnt, sunfCnt := t'.sunfCnt }
end

