-- ==== Sys2Proof/Laws/Decode.lean ====
section
/-! SUPPORT. The fields of words built by the formats of spec/30_encoding.md R93, and register numbers as nibbles. -/

namespace Sys2Proof

theorem regOf_nibbleOf (r : Reg) : regOf (nibbleOf r) = r := by revert r; decide

theorem nibbleOf_regOf (b : Nibble) : nibbleOf (regOf b) = b := by revert b; decide

/-- The fields of a word given as op and nnn. -/
theorem ofWord_formNNN (op : Nibble) (nnn : Addr) :
    (Fields.ofWord (formNNN op nnn)).op = op ∧ (Fields.ofWord (formNNN op nnn)).nnn = nnn := by
  constructor <;>
  · ext i hi
    simp only [Fields.ofWord, formNNN, BitVec.getElem_extractLsb', BitVec.getLsbD_append]
    first
      | (rw [if_neg (by omega)]; simp [BitVec.getLsbD_eq_getElem, hi])
      | (rw [if_pos (by omega)]; simp [BitVec.getLsbD_eq_getElem, hi])

/-- The fields of a word given as op, x and nn. -/
theorem ofWord_formXNN (op : Nibble) (x : Reg) (nn : Byte) :
    (Fields.ofWord (formXNN op x nn)).op = op ∧ (Fields.ofWord (formXNN op x nn)).x = nibbleOf x ∧
      (Fields.ofWord (formXNN op x nn)).nn = nn := by
  refine ⟨?_, ?_, ?_⟩
  · exact (ofWord_formNNN op (nibbleOf x ++ nn)).1
  · ext i hi
    simp only [Fields.ofWord, formXNN, BitVec.getElem_extractLsb', BitVec.getLsbD_append]
    rw [if_pos (by omega), if_neg (by omega)]
    simp [BitVec.getLsbD_eq_getElem, hi]
  · ext i hi
    simp only [Fields.ofWord, formXNN, BitVec.getElem_extractLsb', BitVec.getLsbD_append]
    rw [if_pos (by omega), if_pos (by omega)]
    simp [BitVec.getLsbD_eq_getElem, hi]

/-- The fields of a word given as op, x, y and n. -/
theorem ofWord_formXYN (op : Nibble) (x y : Reg) (n : Nibble) :
    (Fields.ofWord (formXYN op x y n)).op = op ∧ (Fields.ofWord (formXYN op x y n)).x = nibbleOf x ∧
      (Fields.ofWord (formXYN op x y n)).y = nibbleOf y ∧ (Fields.ofWord (formXYN op x y n)).n = n := by
  refine ⟨(ofWord_formXNN op x (nibbleOf y ++ n)).1, (ofWord_formXNN op x (nibbleOf y ++ n)).2.1, ?_, ?_⟩
  · ext i hi
    simp only [Fields.ofWord, formXYN, BitVec.getElem_extractLsb', BitVec.getLsbD_append]
    rw [if_pos (by omega), if_pos (by omega), if_neg (by omega)]
    simp [BitVec.getLsbD_eq_getElem, hi]
  · ext i hi
    simp only [Fields.ofWord, formXYN, BitVec.getElem_extractLsb', BitVec.getLsbD_append]
    rw [if_pos (by omega), if_pos (by omega), if_pos (by omega)]
    simp [BitVec.getLsbD_eq_getElem, hi]

/-- A word is its two bytes. -/
theorem wordOfBytes_bytes (w : Word) : wordOfBytes (w.extractLsb' 8 8) (w.extractLsb' 0 8) = w := by
  apply BitVec.eq_of_getLsbD_eq
  intro i hi
  simp only [wordOfBytes, BitVec.getLsbD_append, BitVec.getLsbD_extractLsb']
  by_cases h : i < 8
  · simp [h]
  · have h2 : i - 8 < 8 := by omega
    simp [h, h2, show 8 + (i - 8) = i by omega]

/-- A table word given as op and nnn. -/
theorem tableWord_formNNN (op : Nibble) (nnn : Addr) :
    tableWord 16 (4096 * op.toNat + nnn.toNat) = formNNN op nnn := by
  have ho : op.toNat < 16 := op.isLt
  have hn : nnn.toNat < 4096 := nnn.isLt
  apply BitVec.eq_of_toNat_eq
  simp only [tableWord, formNNN, BitVec.toNat_ofNat, BitVec.toNat_append]
  rw [← Nat.shiftLeft_add_eq_or_of_lt hn, Nat.shiftLeft_eq]
  omega

/-- A table word given as op, x and nn. -/
theorem tableWord_formXNN (op : Nibble) (x : Reg) (nn : Byte) :
    tableWord 16 (4096 * op.toNat + 256 * x.val + nn.toNat) = formXNN op x nn := by
  have hn : nn.toNat < 2 ^ 8 := nn.isLt
  have hx : x.val < 16 := x.isLt
  rw [formXNN, show op ++ (nibbleOf x ++ nn) = formNNN op (nibbleOf x ++ nn) from rfl, ← tableWord_formNNN]
  congr 1
  rw [BitVec.toNat_append, ← Nat.shiftLeft_add_eq_or_of_lt hn, Nat.shiftLeft_eq]
  simp only [nibbleOf, BitVec.toNat_ofNat]
  omega

/-- A table word given as op, x, y and n. -/
theorem tableWord_formXYN (op : Nibble) (x y : Reg) (n : Nibble) :
    tableWord 16 (4096 * op.toNat + 256 * x.val + 16 * y.val + n.toNat) = formXYN op x y n := by
  have hn : n.toNat < 2 ^ 4 := n.isLt
  have hy : y.val < 16 := y.isLt
  rw [formXYN, show op ++ (nibbleOf x ++ (nibbleOf y ++ n)) = formXNN op x (nibbleOf y ++ n) from rfl,
    ← tableWord_formXNN]
  congr 1
  rw [BitVec.toNat_append, ← Nat.shiftLeft_add_eq_or_of_lt hn, Nat.shiftLeft_eq]
  simp only [nibbleOf, BitVec.toNat_ofNat]
  omega

/-- Decoding the bytes of a word is decoding the word. -/
theorem decode_bytesOfWord (w : Word) (rest : List Byte) :
    decode (bytesOfWord w ++ rest) =
      match decodeWord w with
      | .instr i => .ok (i, rest)
      | .unknown why => .error why := by
  cases h : decodeWord w <;>
    simp only [bytesOfWord, List.cons_append, List.nil_append, decode, wordOfBytes_bytes, h]

/-- The decoder on a table word. -/
theorem decodeTableWord_eq (nbits w : Nat) :
    decodeTableWord nbits w =
      match decodeWord (tableWord nbits w) with
      | .instr i => some i
      | .unknown _ => none := by
  have h := decode_bytesOfWord (tableWord nbits w) []
  rw [List.append_nil] at h
  rw [decodeTableWord, h]
  cases decodeWord (tableWord nbits w) <;> rfl

end Sys2Proof
end

