-- ==== Sys2Proof/Laws/Flags.lean ====
section
/-! SUPPORT. What each flag computation puts in VF, as a number (spec/42_register_alu.md R168 to R172). -/

namespace Sys2Proof.Machine

@[simp] theorem flagByte_true : flagByte true = 1#8 := rfl
@[simp] theorem flagByte_false : flagByte false = 0#8 := rfl

theorem flagByte_decide (p : Prop) [Decidable p] : flagByte (decide p) = if p then 1#8 else 0#8 := by
  by_cases h : p <;> simp [h]

theorem flagByte_eq_one (b : Bool) : flagByte b = 1#8 ↔ b = true := by cases b <;> simp

theorem flagByte_zero_or_one (b : Bool) : flagByte b = 0#8 ∨ flagByte b = 1#8 := by cases b <;> simp

theorem flagByte_carryOut (p q : Byte) :
    flagByte (carryOut p q) = if 255 < p.toNat + q.toNat then 1#8 else 0#8 := flagByte_decide _

theorem flagByte_strictlyGreater (p q : Byte) :
    flagByte (strictlyGreater p q) = if q.toNat < p.toNat then 1#8 else 0#8 := flagByte_decide _

theorem flagByte_lowBit (t : Byte) : (flagByte (lowBit t)).toNat = t.toNat % 2 := by revert t; decide

theorem flagByte_highBit (t : Byte) : (flagByte (highBit t)).toNat = t.toNat / 128 := by revert t; decide

end Sys2Proof.Machine
end

