-- ==== Sys2Proof/Laws/State.lean ====
section
/-! SUPPORT. One lemma per field per update of State, so that no later proof unfolds a record update. -/

namespace Sys2Proof.Machine

/-! ### `setV` -/

@[simp] theorem setV_v (s : State) (x : Reg) (b : Byte) : (s.setV x b).v = s.v.set x b := rfl
@[simp] theorem setV_idx (s : State) (x : Reg) (b : Byte) : (s.setV x b).idx = s.idx := rfl
@[simp] theorem setV_pc (s : State) (x : Reg) (b : Byte) : (s.setV x b).pc = s.pc := rfl
@[simp] theorem setV_sp (s : State) (x : Reg) (b : Byte) : (s.setV x b).sp = s.sp := rfl
@[simp] theorem setV_stk (s : State) (x : Reg) (b : Byte) : (s.setV x b).stk = s.stk := rfl
@[simp] theorem setV_dt (s : State) (x : Reg) (b : Byte) : (s.setV x b).dt = s.dt := rfl
@[simp] theorem setV_st (s : State) (x : Reg) (b : Byte) : (s.setV x b).st = s.st := rfl
@[simp] theorem setV_disp (s : State) (x : Reg) (b : Byte) : (s.setV x b).disp = s.disp := rfl
@[simp] theorem setV_key (s : State) (x : Reg) (b : Byte) : (s.setV x b).key = s.key := rfl
@[simp] theorem setV_mem (s : State) (x : Reg) (b : Byte) : (s.setV x b).mem = s.mem := rfl
@[simp] theorem setV_loaded (s : State) (x : Reg) (b : Byte) : (s.setV x b).loaded = s.loaded := rfl
@[simp] theorem setV_strict (s : State) (x : Reg) (b : Byte) : (s.setV x b).strict = s.strict := rfl
@[simp] theorem setV_halted (s : State) (x : Reg) (b : Byte) : (s.setV x b).halted = s.halted := rfl
@[simp] theorem setV_fstat (s : State) (x : Reg) (b : Byte) : (s.setV x b).fstat = s.fstat := rfl
@[simp] theorem setV_unkCnt (s : State) (x : Reg) (b : Byte) : (s.setV x b).unkCnt = s.unkCnt := rfl
@[simp] theorem setV_sovfCnt (s : State) (x : Reg) (b : Byte) : (s.setV x b).sovfCnt = s.sovfCnt := rfl
@[simp] theorem setV_sunfCnt (s : State) (x : Reg) (b : Byte) : (s.setV x b).sunfCnt = s.sunfCnt := rfl
@[simp] theorem setV_rnd (s : State) (x : Reg) (b : Byte) : (s.setV x b).rnd = s.rnd := rfl
@[simp] theorem setV_draws (s : State) (x : Reg) (b : Byte) : (s.setV x b).draws = s.draws := rfl
@[simp] theorem setV_reply (s : State) (x : Reg) (b : Byte) : (s.setV x b).reply = s.reply := rfl
@[simp] theorem setV_host (s : State) (x : Reg) (b : Byte) : (s.setV x b).host = s.host := rfl

theorem getV_setV_same (s : State) (x : Reg) (b : Byte) : (s.setV x b).getV x = b := by
  simp [State.getV, State.setV]

theorem getV_setV_other (s : State) {x y : Reg} (h : y ≠ x) (b : Byte) : (s.setV x b).getV y = s.getV y := by
  have : x.val ≠ y.val := fun e => h (Fin.ext e.symm)
  simp [State.getV, State.setV, Vector.getElem_set_ne _ _ this]

/-! ### `answer` -/

@[simp] theorem answer_v (s : State) (c : StepCode) (d : Bool) : (s.answer c d).v = s.v := rfl
@[simp] theorem answer_idx (s : State) (c : StepCode) (d : Bool) : (s.answer c d).idx = s.idx := rfl
@[simp] theorem answer_pc (s : State) (c : StepCode) (d : Bool) : (s.answer c d).pc = s.pc := rfl
@[simp] theorem answer_sp (s : State) (c : StepCode) (d : Bool) : (s.answer c d).sp = s.sp := rfl
@[simp] theorem answer_stk (s : State) (c : StepCode) (d : Bool) : (s.answer c d).stk = s.stk := rfl
@[simp] theorem answer_dt (s : State) (c : StepCode) (d : Bool) : (s.answer c d).dt = s.dt := rfl
@[simp] theorem answer_st (s : State) (c : StepCode) (d : Bool) : (s.answer c d).st = s.st := rfl
@[simp] theorem answer_disp (s : State) (c : StepCode) (d : Bool) : (s.answer c d).disp = s.disp := rfl
@[simp] theorem answer_key (s : State) (c : StepCode) (d : Bool) : (s.answer c d).key = s.key := rfl
@[simp] theorem answer_mem (s : State) (c : StepCode) (d : Bool) : (s.answer c d).mem = s.mem := rfl
@[simp] theorem answer_loaded (s : State) (c : StepCode) (d : Bool) : (s.answer c d).loaded = s.loaded := rfl
@[simp] theorem answer_strict (s : State) (c : StepCode) (d : Bool) : (s.answer c d).strict = s.strict := rfl
@[simp] theorem answer_halted (s : State) (c : StepCode) (d : Bool) : (s.answer c d).halted = s.halted := rfl
@[simp] theorem answer_fstat (s : State) (c : StepCode) (d : Bool) : (s.answer c d).fstat = s.fstat := rfl
@[simp] theorem answer_unkCnt (s : State) (c : StepCode) (d : Bool) : (s.answer c d).unkCnt = s.unkCnt := rfl
@[simp] theorem answer_sovfCnt (s : State) (c : StepCode) (d : Bool) : (s.answer c d).sovfCnt = s.sovfCnt := rfl
@[simp] theorem answer_sunfCnt (s : State) (c : StepCode) (d : Bool) : (s.answer c d).sunfCnt = s.sunfCnt := rfl
@[simp] theorem answer_rnd (s : State) (c : StepCode) (d : Bool) : (s.answer c d).rnd = s.rnd := rfl
@[simp] theorem answer_draws (s : State) (c : StepCode) (d : Bool) : (s.answer c d).draws = s.draws := rfl
@[simp] theorem answer_reply (s : State) (c : StepCode) (d : Bool) : (s.answer c d).reply = .stepped ⟨c, d, s.tone⟩ := rfl
@[simp] theorem answer_host (s : State) (c : StepCode) (d : Bool) : (s.answer c d).host = s.host := rfl

/-! ### `count` moves one counter and nothing else -/

@[simp] theorem count_v (s : State) (f : StepFault) : (s.count f).v = s.v := by cases f <;> rfl
@[simp] theorem count_idx (s : State) (f : StepFault) : (s.count f).idx = s.idx := by cases f <;> rfl
@[simp] theorem count_pc (s : State) (f : StepFault) : (s.count f).pc = s.pc := by cases f <;> rfl
@[simp] theorem count_sp (s : State) (f : StepFault) : (s.count f).sp = s.sp := by cases f <;> rfl
@[simp] theorem count_stk (s : State) (f : StepFault) : (s.count f).stk = s.stk := by cases f <;> rfl
@[simp] theorem count_dt (s : State) (f : StepFault) : (s.count f).dt = s.dt := by cases f <;> rfl
@[simp] theorem count_st (s : State) (f : StepFault) : (s.count f).st = s.st := by cases f <;> rfl
@[simp] theorem count_disp (s : State) (f : StepFault) : (s.count f).disp = s.disp := by cases f <;> rfl
@[simp] theorem count_key (s : State) (f : StepFault) : (s.count f).key = s.key := by cases f <;> rfl
@[simp] theorem count_mem (s : State) (f : StepFault) : (s.count f).mem = s.mem := by cases f <;> rfl
@[simp] theorem count_loaded (s : State) (f : StepFault) : (s.count f).loaded = s.loaded := by cases f <;> rfl
@[simp] theorem count_strict (s : State) (f : StepFault) : (s.count f).strict = s.strict := by cases f <;> rfl
@[simp] theorem count_halted (s : State) (f : StepFault) : (s.count f).halted = s.halted := by cases f <;> rfl
@[simp] theorem count_fstat (s : State) (f : StepFault) : (s.count f).fstat = s.fstat := by cases f <;> rfl
@[simp] theorem count_rnd (s : State) (f : StepFault) : (s.count f).rnd = s.rnd := by cases f <;> rfl
@[simp] theorem count_draws (s : State) (f : StepFault) : (s.count f).draws = s.draws := by cases f <;> rfl
@[simp] theorem count_host (s : State) (f : StepFault) : (s.count f).host = s.host := by cases f <;> rfl

/-! ### `recordFault` writes FSTAT, HALTED and the reply, and nothing else -/

@[simp] theorem recordFault_v (s : State) (f : StepFault) : (s.recordFault f).v = s.v := rfl
@[simp] theorem recordFault_idx (s : State) (f : StepFault) : (s.recordFault f).idx = s.idx := rfl
@[simp] theorem recordFault_pc (s : State) (f : StepFault) : (s.recordFault f).pc = s.pc := rfl
@[simp] theorem recordFault_sp (s : State) (f : StepFault) : (s.recordFault f).sp = s.sp := rfl
@[simp] theorem recordFault_stk (s : State) (f : StepFault) : (s.recordFault f).stk = s.stk := rfl
@[simp] theorem recordFault_dt (s : State) (f : StepFault) : (s.recordFault f).dt = s.dt := rfl
@[simp] theorem recordFault_st (s : State) (f : StepFault) : (s.recordFault f).st = s.st := rfl
@[simp] theorem recordFault_disp (s : State) (f : StepFault) : (s.recordFault f).disp = s.disp := rfl
@[simp] theorem recordFault_key (s : State) (f : StepFault) : (s.recordFault f).key = s.key := rfl
@[simp] theorem recordFault_mem (s : State) (f : StepFault) : (s.recordFault f).mem = s.mem := rfl
@[simp] theorem recordFault_loaded (s : State) (f : StepFault) : (s.recordFault f).loaded = s.loaded := rfl
@[simp] theorem recordFault_strict (s : State) (f : StepFault) : (s.recordFault f).strict = s.strict := rfl
@[simp] theorem recordFault_halted (s : State) (f : StepFault) :
    (s.recordFault f).halted = (s.halted || s.strict) := rfl
@[simp] theorem recordFault_fstat (s : State) (f : StepFault) : (s.recordFault f).fstat = setFstat f s.fstat := rfl
@[simp] theorem recordFault_unkCnt (s : State) (f : StepFault) : (s.recordFault f).unkCnt = s.unkCnt := rfl
@[simp] theorem recordFault_sovfCnt (s : State) (f : StepFault) : (s.recordFault f).sovfCnt = s.sovfCnt := rfl
@[simp] theorem recordFault_sunfCnt (s : State) (f : StepFault) : (s.recordFault f).sunfCnt = s.sunfCnt := rfl
@[simp] theorem recordFault_rnd (s : State) (f : StepFault) : (s.recordFault f).rnd = s.rnd := rfl
@[simp] theorem recordFault_draws (s : State) (f : StepFault) : (s.recordFault f).draws = s.draws := rfl
@[simp] theorem recordFault_reply (s : State) (f : StepFault) :
    (s.recordFault f).reply = .stepped ⟨.fault f, false, s.tone⟩ := rfl
@[simp] theorem recordFault_host (s : State) (f : StepFault) : (s.recordFault f).host = s.host := rfl

/-! ### The stack -/

/-- A push on a stack that is not full. -/
theorem push_of_lt (s : State) (r : Word) (h : s.sp.val < 16) :
    s.push r = some { s with stk := s.stk.set s.sp.val r, sp := ⟨s.sp.val + 1, by omega⟩ } := by
  simp [State.push, h]

/-- A push on a full stack. -/
theorem push_full (s : State) (r : Word) (h : s.sp.val = 16) : s.push r = none := by
  simp [State.push, h]

/-- A pop of a stack that is not empty. -/
theorem pop_of_pos (s : State) (h : 0 < s.sp.val) :
    s.pop = some (s.stk[s.sp.val - 1], { s with sp := ⟨s.sp.val - 1, by omega⟩ }) := by
  have h' : s.sp.val ≠ 0 := by omega
  simp only [State.pop, h', dite_false]

/-- A pop of an empty stack. -/
theorem pop_empty (s : State) (h : s.sp.val = 0) : s.pop = none := by
  simp [State.pop, h]

end Sys2Proof.Machine
end

