-- ==== Sys2Proof/Laws/Memory.lean ====
section
/-! SUPPORT. The laws of memory: read after write, and that every operation keeps the canonical form (spec/20_memory.md R63,
R67, R68). -/

namespace Sys2Proof.Machine

theorem read_nil (a : Nat) : Memory.read [] a = resetByte a := rfl

/-- In a list whose addresses all lie above `a`, `a` is not listed. -/
theorem read_of_lt {m : Memory} {a : Nat} (h : ∀ c ∈ m, a < c.1) : m.read a = resetByte a := by
  induction m with
  | nil => rfl
  | cons c m ih =>
    obtain ⟨b, u⟩ := c
    have hb : a < b := h (b, u) (by simp)
    have : b ≠ a := by omega
    simp only [Memory.read, this, if_false]
    exact ih fun c hc => h c (by simp [hc])

/-- "A read returns the last byte written there" (R68). -/
theorem read_write_same {m : Memory} (hm : m.Pairwise (fun p q => p.1 < q.1)) (a : Nat) (w : Byte) :
    (m.write a w).read a = w := by
  induction m with
  | nil => by_cases h : w = resetByte a <;> simp [Memory.write, Memory.read, h]
  | cons c m ih =>
    obtain ⟨b, u⟩ := c
    rw [List.pairwise_cons] at hm
    simp only [Memory.write]
    split
    · next hlt =>
      have : b ≠ a := by omega
      simpa [Memory.read, this] using ih hm.2
    · next hlt =>
      split
      · next heq =>
        subst heq
        split
        · next hw => rw [read_of_lt fun c hc => hm.1 c hc, hw]
        · simp [Memory.read]
      · next hne =>
        split
        · next hw =>
          rw [hw]
          refine read_of_lt fun c hc => ?_
          rcases List.mem_cons.1 hc with rfl | hc
          · show a < b; omega
          · have : b < c.1 := hm.1 c hc
            omega
        · simp [Memory.read]

/-- A write leaves every other address alone. -/
theorem read_write_other (m : Memory) {a a' : Nat} (h : a' ≠ a) (w : Byte) :
    (m.write a w).read a' = m.read a' := by
  induction m with
  | nil =>
    by_cases hw : w = resetByte a <;> simp [Memory.write, Memory.read, hw, Ne.symm h]
  | cons c m ih =>
    obtain ⟨b, u⟩ := c
    simp only [Memory.write]
    split
    · simp only [Memory.read, ih]
    · split
      · next heq =>
        subst heq
        split <;> simp [Memory.read, Ne.symm h]
      · split <;> simp [Memory.read, Ne.symm h]

/-- Every entry of a written memory is the written one or an old one. -/
theorem mem_write {m : Memory} {a : Nat} {w : Byte} {c : Host.Cell} (hc : c ∈ m.write a w) :
    (c = (a, w) ∧ w ≠ resetByte a) ∨ c ∈ m := by
  induction m with
  | nil =>
    simp only [Memory.write] at hc
    split at hc
    · simp at hc
    · next h => simp at hc; exact .inl ⟨hc, h⟩
  | cons d m ih =>
    obtain ⟨b, u⟩ := d
    simp only [Memory.write] at hc
    split at hc
    · rcases List.mem_cons.1 hc with rfl | hc
      · exact .inr (by simp)
      · rcases ih hc with h | h
        · exact .inl h
        · exact .inr (by simp [h])
    · split at hc
      · split at hc
        · exact .inr (by simp [hc])
        · next h =>
          rcases List.mem_cons.1 hc with rfl | hc
          · exact .inl ⟨rfl, h⟩
          · exact .inr (by simp [hc])
      · split at hc
        · exact .inr hc
        · next h =>
          rcases List.mem_cons.1 hc with rfl | hc
          · exact .inl ⟨rfl, h⟩
          · exact .inr hc

/-- A write keeps the addresses rising. -/
theorem write_pairwise {m : Memory} (hm : m.Pairwise (fun p q => p.1 < q.1)) (a : Nat) (w : Byte) :
    (m.write a w).Pairwise (fun p q => p.1 < q.1) := by
  induction m with
  | nil => by_cases h : w = resetByte a <;> simp [Memory.write, h]
  | cons d m ih =>
    obtain ⟨b, u⟩ := d
    have hp := List.pairwise_cons.1 hm
    simp only [Memory.write]
    split
    · next hlt =>
      refine List.pairwise_cons.2 ⟨fun c hc => ?_, ih hp.2⟩
      rcases mem_write hc with ⟨rfl, -⟩ | h
      · exact hlt
      · exact hp.1 c h
    · split
      · next heq =>
        subst heq
        split
        · exact hp.2
        · exact List.pairwise_cons.2 ⟨hp.1, hp.2⟩
      · split
        · exact hm
        · refine List.pairwise_cons.2 ⟨fun c hc => ?_, hm⟩
          rcases List.mem_cons.1 hc with rfl | hc
          · show a < b; omega
          · have : b < c.1 := hp.1 c hc
            show a < c.1; omega

/-- A write to a valid address keeps the canonical form. -/
theorem write_wf {m : Memory} (hm : m.wf) {a : Nat} (ha : a ≤ Config.lastAddr) (w : Byte) : (m.write a w).wf := by
  refine ⟨write_pairwise hm.1 a w, fun c hc => ?_⟩
  rcases mem_write hc with ⟨rfl, hw⟩ | h
  · exact ⟨ha, hw⟩
  · exact hm.2 c h

/-- Writing several bytes keeps the canonical form. -/
theorem fill_wf {m : Memory} (hm : m.wf) (bs : List Byte) (a : Nat) (h : a + bs.length ≤ Config.lastAddr + 1) :
    (m.fill a bs).wf := by
  induction bs generalizing m a with
  | nil => exact hm
  | cons b bs ih =>
    simp only [List.length_cons] at h
    exact ih (write_wf hm (by omega) b) (a + 1) (by omega)

/-- Writing several bytes leaves the addresses outside them alone. -/
theorem read_fill_other (m : Memory) (bs : List Byte) (a : Nat) {a' : Nat} (h : a' < a ∨ a + bs.length ≤ a') :
    (m.fill a bs).read a' = m.read a' := by
  induction bs generalizing m a with
  | nil => rfl
  | cons b bs ih =>
    simp only [List.length_cons] at h
    simp only [Memory.fill]
    rw [ih _ (a + 1) (by omega), read_write_other _ (by omega)]

/-- The `k`-th written byte is read back. -/
theorem read_fill_same {m : Memory} (hm : m.Pairwise (fun p q => p.1 < q.1)) (bs : List Byte) (a k : Nat)
    (h : k < bs.length) : (m.fill a bs).read (a + k) = bs[k] := by
  induction bs generalizing m a k with
  | nil => simp at h
  | cons b bs ih =>
    simp only [Memory.fill]
    cases k with
    | zero =>
      rw [read_fill_other _ _ _ (by omega)]
      simpa using read_write_same hm a b
    | succ k =>
      have := ih (write_pairwise hm a b) (a + 1) k (by simpa using h)
      rw [show a + (k + 1) = a + 1 + k by omega, this]
      simp

/-- All a block write can do. -/
theorem writeBlock_eq_some {m m' : Memory} {a : Nat} {bs : List Byte} (h : m.writeBlock a bs = some m') :
    (bs.length = 0 ∨ a + bs.length ≤ Config.lastAddr + 1) ∧ m' = m.fill a bs := by
  by_cases hb : inBounds a bs.length
  · rw [Memory.writeBlock, if_pos hb] at h
    exact ⟨hb, by simpa using h.symm⟩
  · rw [Memory.writeBlock, if_neg hb] at h; simp at h

/-- A block write keeps the canonical form. -/
theorem writeBlock_wf {m m' : Memory} (hm : m.wf) {a : Nat} {bs : List Byte} (h : m.writeBlock a bs = some m') :
    m'.wf := by
  obtain ⟨hb, rfl⟩ := writeBlock_eq_some h
  rcases hb with h0 | h1
  · rw [List.length_eq_zero_iff.1 h0]; exact hm
  · exact fill_wf hm bs a h1

/-- When a block write faults. -/
theorem writeBlock_eq_none (m : Memory) (a : Nat) (bs : List Byte) :
    m.writeBlock a bs = none ↔ bs.length ≠ 0 ∧ Config.lastAddr + 1 < a + bs.length := by
  simp [Memory.writeBlock, inBounds]

/-- All a block read can do. -/
theorem readBlock_eq_some {m : Memory} {a n : Nat} {bs : List Byte} (h : m.readBlock a n = some bs) :
    (n = 0 ∨ a + n ≤ Config.lastAddr + 1) ∧ bs = (List.range n).map fun k => m.read (a + k) := by
  by_cases hb : inBounds a n
  · rw [Memory.readBlock, if_pos hb] at h
    exact ⟨hb, by simpa using h.symm⟩
  · rw [Memory.readBlock, if_neg hb] at h; simp at h

/-- When a block read faults. -/
theorem readBlock_eq_none (m : Memory) (a n : Nat) :
    m.readBlock a n = none ↔ n ≠ 0 ∧ Config.lastAddr + 1 < a + n := by
  simp [Memory.readBlock, inBounds]

/-- The memory a `Load` leaves has the canonical form (R291 bounds the ROM). -/
theorem loadedMemory_wf {rom : List Byte} (h : romWellFormed rom = true) (font : Option Font) :
    (loadedMemory rom font).wf := by
  have hl : rom.length ≤ 3584 := by
    simp only [romWellFormed, Bool.and_eq_true, decide_eq_true_eq] at h
    exact h.2
  have hf : (fontBytes font).length = 80 := by simp [fontBytes]
  refine fill_wf (fill_wf ⟨List.Pairwise.nil, by simp⟩ _ _ ?_) _ _ ?_
  · simp only [hf, Config.fontBase, Config.lastAddr]; omega
  · simp only [Config.progBase, Config.lastAddr]; omega

end Sys2Proof.Machine
end

