-- ==== Sys2Proof/Laws/Ops.lean ====
section
/-! SUPPORT. All that the shared operations of a step can do: the commit of an instruction and the taking of a fault
(spec/40_step_and_dispatch.md R126, R127). -/

namespace Sys2Proof.Machine

/-- An instruction that raised nothing and whose next-PC stays in 0..4095. -/
theorem commit_of_le {s w : State} {n : Nat} {d : Bool} (h : n ≤ 0xFFF) :
    commit s w n d = .next ({ w with pc := BitVec.ofNat 16 n }.answer .none d) := if_pos h

/-- An instruction whose next-PC leaves 0..4095. -/
theorem commit_of_gt {s w : State} {n : Nat} {d : Bool} (h : 0xFFF < n) :
    commit s w n d = .next (s.takeFault .memoryFault) := if_neg (by show ¬ n ≤ 0xFFF; omega)

/-- Everything `commit` can do. -/
theorem commit_cases (s w : State) (n : Nat) (d : Bool) :
    (n ≤ 0xFFF ∧ commit s w n d = .next ({ w with pc := BitVec.ofNat 16 n }.answer .none d)) ∨
    (0xFFF < n ∧ commit s w n d = .next (s.takeFault .memoryFault)) := by
  rcases Nat.lt_or_ge 0xFFF n with h | h
  · exact .inr ⟨h, commit_of_gt h⟩
  · exact .inl ⟨h, commit_of_le h⟩

/-- The committed PC of an instruction that goes on to the next one. -/
theorem ofNat_npc (s : State) : BitVec.ofNat 16 s.npc = s.pc + 2#16 := by
  apply BitVec.eq_of_toNat_eq; simp [State.npc]

/-- The committed PC of a taken skip. -/
theorem ofNat_npc_add_two (s : State) : BitVec.ofNat 16 (s.npc + 2) = s.pc + 4#16 := by
  apply BitVec.eq_of_toNat_eq; simp [State.npc]

/-- An instruction that raised nothing and goes on to the next one, away from the end of memory. -/
theorem commitNext_of_le {s w : State} (h : s.pc.toNat ≤ 0xFFD) :
    commitNext s w = .next ({ w with pc := s.pc + 2#16 }.answer .none false) := by
  rw [commitNext, commit_of_le (by simp only [State.npc]; omega), ofNat_npc]

/-- A skip taken, away from the end of memory. -/
theorem commitSkip_taken {s : State} (h : s.pc.toNat ≤ 0xFFB) :
    commitSkip s true = .next ({ s with pc := s.pc + 4#16 }.answer .none false) := by
  simp only [commitSkip, if_true]
  rw [commit_of_le (by simp only [State.npc]; omega), ofNat_npc_add_two]

/-- A skip not taken, away from the end of memory. -/
theorem commitSkip_untaken {s : State} (h : s.pc.toNat ≤ 0xFFD) :
    commitSkip s false = .next ({ s with pc := s.pc + 2#16 }.answer .none false) := commitNext_of_le h

/-- A fetch that can be made (R121). -/
theorem fetch_of_le (s : State) (h : s.pc.toNat ≤ 0xFFE) :
    s.fetch = some [s.mem.read s.pc.toNat, s.mem.read (s.pc.toNat + 1)] := by
  simp [State.fetch, Memory.readBlock, inBounds, Config.lastAddr, List.range_succ]; omega

/-- The fetch that cannot be made (R121). -/
theorem fetch_of_gt (s : State) (h : 0xFFE < s.pc.toNat) : s.fetch = none := by
  simp [State.fetch, Memory.readBlock, inBounds, Config.lastAddr]; omega

/-- Taking a MemoryFault records it and does nothing else (R253). -/
theorem takeFault_memoryFault (s : State) : s.takeFault .memoryFault = s.recordFault .memoryFault := by
  have : s.reportedFault .memoryFault = .memoryFault := by simp [State.reportedFault]
  simp [State.takeFault, this]

/-- Taking a MemoryFault, as claims write it. -/
theorem takeFault_memoryFault_eq (s : State) : s.takeFault .memoryFault = s.afterMemoryFault := by
  rw [takeFault_memoryFault]; rfl

/-- Everything taking a stack or opcode fault can do: the MemoryFault it becomes at the end of memory (R257), the strict halt
(R258), and the rejected instruction (R254 to R256). -/
theorem takeFault_cases (s : State) {f : StepFault} (hf : f ≠ .memoryFault) :
    (0xFFF < s.npc ∧ s.takeFault f = s.recordFault .memoryFault) ∨
    (s.npc ≤ 0xFFF ∧ s.strict = true ∧ s.takeFault f = s.recordFault f) ∨
    (s.npc ≤ 0xFFF ∧ s.strict = false ∧
      s.takeFault f = ({ s with pc := BitVec.ofNat 16 s.npc }.count f).recordFault f) := by
  rcases Nat.lt_or_ge 0xFFF s.npc with h | h
  · have : s.reportedFault f = .memoryFault := by
      simp only [State.reportedFault, Config.lastAddr]; exact if_neg (by omega)
    exact .inl ⟨h, by simp [State.takeFault, this]⟩
  · have hr : s.reportedFault f = f := if_pos h
    cases hs : s.strict
    · refine .inr (.inr ⟨h, rfl, ?_⟩)
      cases f <;> simp_all [State.takeFault]
    · refine .inr (.inl ⟨h, rfl, ?_⟩)
      cases f <;> simp_all [State.takeFault]

/-- The model's counter step, as claims write it. -/
theorem satInc_eq_oneMore (c : BitVec 32) : satInc c = oneMore c := by
  have h : c = 0xFFFFFFFF#32 ↔ c.toNat = 0xFFFFFFFF := by rw [← BitVec.toNat_inj]; rfl
  simp only [satInc, oneMore, h]; rfl

/-- The model's FSTAT write, as claims write it. -/
theorem setFstat_eq (f : StepFault) (r : BitVec 4) : setFstat f r = r ||| faultBit f := by cases f <;> rfl

/-- `takeFault_cases` in the terms of claims. -/
theorem takeFault_eq (s : State) {f : StepFault} (hf : f ≠ .memoryFault) :
    (0xFFD < s.pc.toNat ∧ s.takeFault f = s.afterMemoryFault) ∨
    (s.pc.toNat ≤ 0xFFD ∧ s.strict = true ∧ s.takeFault f = s.afterStrictHalt f) ∨
    (s.pc.toNat ≤ 0xFFD ∧ s.strict = false ∧ s.takeFault f = s.afterReject f) := by
  rcases takeFault_cases s hf with ⟨h, e⟩ | ⟨h, hs, e⟩ | ⟨h, hs, e⟩ <;> simp only [State.npc] at h
  · exact .inl ⟨by omega, e⟩
  · refine .inr (.inl ⟨by omega, hs, ?_⟩)
    rw [e]; simp [State.recordFault, State.answer, State.afterStrictHalt, State.tone, setFstat_eq, hs]
  · refine .inr (.inr ⟨by omega, hs, ?_⟩)
    rw [e, ofNat_npc]
    cases f <;>
      simp_all [State.recordFault, State.answer, State.afterReject, State.count, State.tone, setFstat_eq,
        satInc_eq_oneMore]

/-- No fault touches a register, memory, the display, the stack, a timer or the keys (R127). -/
theorem takeFault_frame (s : State) (f : StepFault) :
    (s.takeFault f).v = s.v ∧ (s.takeFault f).idx = s.idx ∧ (s.takeFault f).sp = s.sp ∧ (s.takeFault f).stk = s.stk ∧
    (s.takeFault f).dt = s.dt ∧ (s.takeFault f).st = s.st ∧ (s.takeFault f).disp = s.disp ∧
    (s.takeFault f).key = s.key ∧ (s.takeFault f).mem = s.mem ∧ (s.takeFault f).loaded = s.loaded ∧
    (s.takeFault f).strict = s.strict ∧ (s.takeFault f).rnd = s.rnd ∧ (s.takeFault f).draws = s.draws ∧
    (s.takeFault f).host = s.host := by
  by_cases hf : f = .memoryFault
  · subst hf; rw [takeFault_memoryFault]; simp
  · rcases takeFault_cases s hf with ⟨-, h⟩ | ⟨-, -, h⟩ | ⟨-, -, h⟩ <;> rw [h] <;> simp

/-- `setFstat` never clears a bit. -/
theorem getLsbD_setFstat_of_set (f : StepFault) (r : BitVec 4) (k : Nat) (h : r.getLsbD k = true) :
    (setFstat f r).getLsbD k = true := by
  cases f <;> simp [setFstat, h]

/-- A recorded fault leaves FSTAT nonzero. -/
theorem setFstat_ne_zero (f : StepFault) (r : BitVec 4) : setFstat f r ≠ 0 := by
  revert r; cases f <;> decide

/-- The saturating counter never returns to 0. -/
theorem satInc_ne_zero (c : BitVec 32) : satInc c ≠ 0 := by
  unfold satInc
  split
  · next h => rw [h]; decide
  · next h =>
    intro h0
    apply h
    have : c = 0 - 1 := by rw [← h0]; simp
    rw [this]; decide

/-- `lowestKey` finds nothing exactly where no key is pressed (R233). -/
theorem lowestKey_eq_none (k : Word) : lowestKey k = none ↔ k = 0 := by
  constructor
  · intro h
    simp only [lowestKey, List.find?_eq_none] at h
    ext i hi
    have := h ⟨i, hi⟩ (List.mem_finRange _)
    simpa [BitVec.getLsbD_eq_getElem hi] using this
  · rintro rfl
    simp [lowestKey]

/-- One plotted bit, cell by cell (R212). -/
theorem cell_plotBit (cy cx : Nat) (bit : Bool) (k : Canvas) (r c : Nat) :
    (plotBit cy cx bit k).disp.cell r c =
      if r = cy ∧ c = cx ∧ r < 32 ∧ c < 64 then k.disp.cell r c ^^ bit else k.disp.cell r c := by
  by_cases hin : cy < 32 ∧ cx < 64
  · by_cases hrc : r < 32 ∧ c < 64
    · simp only [plotBit, hin, and_self, dite_true, Display.cell, hrc, and_true]
      by_cases hr : r = cy
      · subst hr
        by_cases hc : c = cx
        · subst hc; simp
        · simp [hc, Vector.getElem_set_ne _ _ (Ne.symm hc)]
      · simp [hr, Vector.getElem_set_ne _ _ (Ne.symm hr)]
    · have h2 : ¬ (r = cy ∧ c = cx ∧ r < 32 ∧ c < 64) := fun h => hrc h.2.2
      rw [if_neg h2]; simp only [Display.cell, hrc, dite_false]
  · have h2 : ¬ (r = cy ∧ c = cx ∧ r < 32 ∧ c < 64) := by
      rintro ⟨rfl, rfl, h⟩; exact hin h
    simp only [plotBit, hin, dite_false, h2, if_false]

/-- When one plotted bit is a collision (R212). -/
theorem hit_plotBit (cy cx : Nat) (bit : Bool) (k : Canvas) :
    (plotBit cy cx bit k).hit = (k.hit || (k.disp.cell cy cx && bit)) := by
  by_cases hin : cy < 32 ∧ cx < 64
  · simp only [plotBit, hin, and_self, dite_true, Display.cell]
  · simp [plotBit, hin, Display.cell]

end Sys2Proof.Machine
end

