-- ==== Sys2Proof/Laws/Exec.lean ====
section
/-! SUPPORT. Everything an instruction can do, said once: it takes a fault or commits a working copy
(spec/40_step_and_dispatch.md R122, R126, R127); and what a `Step` event is in terms of `exec`. -/

namespace Sys2Proof.Machine

/-- What every working copy keeps of the state its step began in: nothing but the registers, the memory and the display is
an instruction's to write, and the invariant's parts about them survive. -/
structure WorkingCopy (s w : State) : Prop where
  key : w.key = s.key
  loaded : w.loaded = s.loaded
  strict : w.strict = s.strict
  halted : w.halted = s.halted
  fstat : w.fstat = s.fstat
  unkCnt : w.unkCnt = s.unkCnt
  sovfCnt : w.sovfCnt = s.sovfCnt
  sunfCnt : w.sunfCnt = s.sunfCnt
  rnd : w.rnd = s.rnd
  draws : w.draws = s.draws
  host : w.host = s.host
  wf : s.mem.wf → w.mem.wf
  slots : s.slotsInRange → s.pc.toNat ≤ 0xFFE → w.slotsInRange

/-- A copy that differs in V, I, the timers, the display, PC or the reply only. -/
theorem WorkingCopy.ofSimple (s : State) (v : Vector Byte 16) (idx pc : Word) (dt st : Byte) (disp : Display)
    (reply : Reply) :
    WorkingCopy s { s with v := v, idx := idx, pc := pc, dt := dt, st := st, disp := disp, reply := reply } :=
  ⟨rfl, rfl, rfl, rfl, rfl, rfl, rfl, rfl, rfl, rfl, rfl, id, fun h _ => h⟩

/-- A copy with other memory in canonical form. -/
theorem WorkingCopy.ofMem (s : State) (m : Memory) (h : s.mem.wf → m.wf) : WorkingCopy s { s with mem := m } :=
  ⟨rfl, rfl, rfl, rfl, rfl, rfl, rfl, rfl, rfl, rfl, rfl, h, fun h _ => h⟩

/-- A popped stack. -/
theorem WorkingCopy.ofPop {s w : State} {r : Word} (h : s.pop = some (r, w)) : WorkingCopy s w := by
  by_cases h0 : s.sp.val = 0
  · rw [pop_empty s h0] at h; cases h
  · rw [pop_of_pos s (by omega)] at h; cases h
    refine ⟨rfl, rfl, rfl, rfl, rfl, rfl, rfl, rfl, rfl, rfl, rfl, id, fun hh _ k hk => hh k ?_⟩
    simp only at hk; omega

/-- A stack with this step's return address pushed. -/
theorem WorkingCopy.ofPush {s w : State} (h : s.push (BitVec.ofNat 16 s.npc) = some w) : WorkingCopy s w := by
  by_cases hsp : s.sp.val < 16
  · rw [push_of_lt s _ hsp] at h; cases h
    refine ⟨rfl, rfl, rfl, rfl, rfl, rfl, rfl, rfl, rfl, rfl, rfl, id, fun hh hp k hk => ?_⟩
    simp only [Fin.getElem_fin] at hk ⊢
    by_cases e : s.sp.val = k.val
    · simp [e, State.npc]; omega
    · rw [Vector.getElem_set_ne _ _ e]; exact hh k (by omega)
  · rw [push_full s _ (by omega)] at h; cases h

/-- Every instruction takes a fault or commits a working copy; only the two display instructions report a display change, and
only a call on a full stack and a return on an empty one raise a fault that is no MemoryFault. -/
theorem exec_cases (i : Instr) (s : State) :
    (∃ f, exec i s = .next (s.takeFault f) ∧
      (f = .memoryFault ∨ (f = .stackOverflow ∧ s.sp.val = 16 ∧ ∃ nnn, i = .call nnn) ∨
        (f = .stackUnderflow ∧ s.sp.val = 0 ∧ i = .ret))) ∨
    (∃ w n d, exec i s = commit s w n d ∧ WorkingCopy s w ∧ (d = true ↔ i = .cls ∨ ∃ x y n, i = .drw x y n)) := by
  have reg : ∀ v idx dt st disp d n, exec i s = commit s { s with v := v, idx := idx, dt := dt, st := st, disp := disp } n d →
      (d = true ↔ i = .cls ∨ ∃ x y n, i = .drw x y n) →
      (∃ w n d, exec i s = commit s w n d ∧ WorkingCopy s w ∧ (d = true ↔ i = .cls ∨ ∃ x y n, i = .drw x y n)) :=
    fun v idx dt st disp d n h hd => ⟨_, n, d, h, WorkingCopy.ofSimple s v idx s.pc dt st disp s.reply, hd⟩
  cases i
  case ret =>
    simp only [exec, execRet]
    split
    · rename_i h
      refine .inl ⟨_, rfl, .inr (.inr ⟨rfl, ?_, trivial⟩)⟩
      by_contra h0; rw [pop_of_pos s (by omega)] at h; cases h
    · rename_i h; exact .inr ⟨_, _, _, rfl, .ofPop h, by simp⟩
  case call nnn =>
    simp only [exec, execCall]
    split
    · rename_i h
      refine .inl ⟨_, rfl, .inr (.inl ⟨rfl, ?_, nnn, rfl⟩)⟩
      by_contra h16; rw [push_of_lt s _ (by omega)] at h; cases h
    · rename_i h; exact .inr ⟨_, _, _, rfl, .ofPush h, by simp⟩
  case drw x y n =>
    simp only [exec, execDrw] at reg ⊢
    split
    · exact .inl ⟨_, rfl, .inl rfl⟩
    · exact .inr ⟨_, _, _, rfl, .ofSimple s _ _ _ _ _ _ _, by simp⟩
  case ldB x =>
    simp only [exec, execLdB]
    split
    · exact .inl ⟨_, rfl, .inl rfl⟩
    · rename_i h; exact .inr ⟨_, _, _, rfl, .ofMem s _ fun hw => writeBlock_wf hw h, by simp⟩
  case storeRegs x =>
    simp only [exec, execStoreRegs]
    split
    · exact .inl ⟨_, rfl, .inl rfl⟩
    · rename_i h; exact .inr ⟨_, _, _, rfl, .ofMem s _ fun hw => writeBlock_wf hw h, by simp⟩
  case loadRegs x =>
    simp only [exec, execLoadRegs] at reg ⊢
    split
    · exact .inl ⟨_, rfl, .inl rfl⟩
    · exact .inr ⟨_, _, _, rfl, .ofSimple s _ _ _ _ _ _ _, by simp⟩
  case ldVxK x =>
    simp only [exec, execLdVxK] at reg ⊢
    split
    · exact .inr ⟨_, _, _, rfl, .ofSimple s _ _ _ _ _ _ _, by simp⟩
    · exact .inr ⟨_, _, _, rfl, .ofSimple s _ _ _ _ _ _ _, by simp⟩
  all_goals exact .inr (reg _ _ _ _ _ _ _ rfl (by simp))

/-- A `Step` of a running machine. -/
theorem performStep_running {s : State} (rnd : Byte) (h : s.halted = false) :
    performStep rnd s = runInstruction { s with rnd := rnd } := if_neg (by simp [h])

/-- An instruction fetched, decoded and executed. -/
theorem runInstruction_instr {s : State} {i : Instr} (hp : s.pc.toNat ≤ 0xFFE)
    (hd : decodeWord (wordOfBytes (s.mem.read s.pc.toNat) (s.mem.read (s.pc.toNat + 1))) = .instr i) :
    runInstruction s = exec i s := by
  simp only [runInstruction, fetch_of_le s hp, decode, hd]

/-- An unknown word fetched. -/
theorem runInstruction_unknown {s : State} {why : Reject} (hp : s.pc.toNat ≤ 0xFFE)
    (hd : decodeWord (wordOfBytes (s.mem.read s.pc.toNat) (s.mem.read (s.pc.toNat + 1))) = .unknown why) :
    runInstruction s = .next (s.takeFault .unknownOpcode) := by
  simp only [runInstruction, fetch_of_le s hp, decode, hd]

/-- A fetch past the last valid byte. -/
theorem runInstruction_noFetch {s : State} (hp : 0xFFE < s.pc.toNat) :
    runInstruction s = .next (s.takeFault .memoryFault) := by
  simp only [runInstruction, fetch_of_gt s hp]

/-- What taking an event off the list leaves. -/
theorem nextEvent_cons {s : State} {e : Event} {es : List Event} (h : s.host = e :: es) :
    s.nextEvent = (e, { s with host := es }) := by
  simp only [State.nextEvent, h]

/-- With no event pending the next event is a `Step`. -/
theorem nextEvent_nil {s : State} (h : s.host = []) :
    s.nextEvent = (.step (Config.randomByte s.draws), { s with draws := s.draws + 1 }) := by
  simp only [State.nextEvent, h]

/-- A pending `Step` of a machine that is loaded and not halted. -/
theorem step_pending_step {s : State} {rnd : Byte} {es : List Event} (hl : s.loaded = true) (hh : s.halted = false)
    (hs : s.host = .step rnd :: es) : step s = runInstruction { s with rnd := rnd, host := es } := by
  rw [step, nextEvent_cons hs]
  exact (if_pos hl).trans (performStep_running rnd hh)

/-- The `Step` of a machine that is loaded and not halted, with no event pending. -/
theorem step_no_event {s : State} (hl : s.loaded = true) (hh : s.halted = false) (hs : s.host = []) :
    step s = runInstruction { s with rnd := Config.randomByte s.draws, draws := s.draws + 1 } := by
  rw [step, nextEvent_nil hs]
  exact (if_pos hl).trans (performStep_running _ hh)

end Sys2Proof.Machine
end

