-- ==== Sys2Proof/Laws/PerInstr.lean ====
section
/-! SUPPORT. Per instruction: its word lies in its own row of the opcode map (spec/30_encoding.md R95). -/

namespace Sys2Proof.Laws.RowMatch

/-- The instruction's word is selected by the instruction's row, which is one of the 34. -/
def Statement (i : Instr) : Prop := (rowOf i).selects (encodeWord i) = true ∧ rowOf i ∈ opcodeRows

/-- The mask 0xF000 keeps the top nibble. -/
theorem formNNN_and_mask (op : Nibble) (nnn : Addr) : formNNN op nnn &&& 0xF000#16 = formNNN op 0 := by
  have hlow : ∀ j : Fin 12, (0xF000#16).getLsbD j.val = false := by decide
  have hhigh : ∀ j : Fin 4, (0xF000#16).getLsbD (12 + j.val) = true := by decide
  apply BitVec.eq_of_getLsbD_eq
  intro i hi
  simp only [formNNN, BitVec.getLsbD_and, BitVec.getLsbD_append]
  by_cases h : i < 12
  · have := hlow ⟨i, h⟩
    simp_all
  · have := hhigh ⟨i - 12, by omega⟩
    rw [show 12 + (i - 12) = i by omega] at this
    simp [h, this]

/-- An instruction whose row matches on the top nibble alone. -/
theorem of_top_nibble {i : Instr} (op : Nibble) (nnn : Addr) (hw : encodeWord i = formNNN op nnn)
    (hr : rowOf i = ⟨formNNN op 0, 0xF000#16⟩) (hm : (⟨formNNN op 0, 0xF000#16⟩ : Row) ∈ opcodeRows) : Statement i :=
  ⟨by rw [hw, hr]; exact beq_iff_eq.2 (formNNN_and_mask op nnn), by rw [hr]; exact hm⟩

theorem cls : Statement .cls := ⟨by decide, by decide⟩
theorem ret : Statement .ret := ⟨by decide, by decide⟩
theorem jp (nnn : Addr) : Statement (.jp nnn) :=
  of_top_nibble 0x1 nnn rfl (by rfl) (by decide)
theorem call (nnn : Addr) : Statement (.call nnn) :=
  of_top_nibble 0x2 nnn rfl (by rfl) (by decide)
theorem seImm (x : Reg) (nn : Byte) : Statement (.seImm x nn) :=
  of_top_nibble 0x3 (nibbleOf x ++ nn) rfl (by rfl) (by decide)
theorem sneImm (x : Reg) (nn : Byte) : Statement (.sneImm x nn) :=
  of_top_nibble 0x4 (nibbleOf x ++ nn) rfl (by rfl) (by decide)
theorem seReg (x y : Reg) : Statement (.seReg x y) := by revert x y; unfold Statement; decide
theorem sneReg (x y : Reg) : Statement (.sneReg x y) := by revert x y; unfold Statement; decide
theorem ldImm (x : Reg) (nn : Byte) : Statement (.ldImm x nn) :=
  of_top_nibble 0x6 (nibbleOf x ++ nn) rfl (by rfl) (by decide)
theorem addImm (x : Reg) (nn : Byte) : Statement (.addImm x nn) :=
  of_top_nibble 0x7 (nibbleOf x ++ nn) rfl (by rfl) (by decide)
theorem ldReg (x y : Reg) : Statement (.ldReg x y) := by revert x y; unfold Statement; decide
theorem orReg (x y : Reg) : Statement (.orReg x y) := by revert x y; unfold Statement; decide
theorem andReg (x y : Reg) : Statement (.andReg x y) := by revert x y; unfold Statement; decide
theorem xorReg (x y : Reg) : Statement (.xorReg x y) := by revert x y; unfold Statement; decide
theorem addReg (x y : Reg) : Statement (.addReg x y) := by revert x y; unfold Statement; decide
theorem subReg (x y : Reg) : Statement (.subReg x y) := by revert x y; unfold Statement; decide
theorem shrReg (x y : Reg) : Statement (.shrReg x y) := by revert x y; unfold Statement; decide
theorem subnReg (x y : Reg) : Statement (.subnReg x y) := by revert x y; unfold Statement; decide
theorem shlReg (x y : Reg) : Statement (.shlReg x y) := by revert x y; unfold Statement; decide
theorem ldI (nnn : Addr) : Statement (.ldI nnn) :=
  of_top_nibble 0xA nnn rfl (by rfl) (by decide)
theorem jpV0 (nnn : Addr) : Statement (.jpV0 nnn) :=
  of_top_nibble 0xB nnn rfl (by rfl) (by decide)
theorem rnd (x : Reg) (nn : Byte) : Statement (.rnd x nn) :=
  of_top_nibble 0xC (nibbleOf x ++ nn) rfl (by rfl) (by decide)
theorem drw (x y : Reg) (n : Fin 16) : Statement (.drw x y n) :=
  of_top_nibble 0xD (nibbleOf x ++ (nibbleOf y ++ nibbleOf n)) rfl (by rfl) (by decide)
theorem skp (x : Reg) : Statement (.skp x) := by revert x; unfold Statement; decide
theorem sknp (x : Reg) : Statement (.sknp x) := by revert x; unfold Statement; decide
theorem ldVxDT (x : Reg) : Statement (.ldVxDT x) := by revert x; unfold Statement; decide
theorem ldDTVx (x : Reg) : Statement (.ldDTVx x) := by revert x; unfold Statement; decide
theorem ldSTVx (x : Reg) : Statement (.ldSTVx x) := by revert x; unfold Statement; decide
theorem addI (x : Reg) : Statement (.addI x) := by revert x; unfold Statement; decide
theorem ldVxK (x : Reg) : Statement (.ldVxK x) := by revert x; unfold Statement; decide
theorem ldF (x : Reg) : Statement (.ldF x) := by revert x; unfold Statement; decide
theorem ldB (x : Reg) : Statement (.ldB x) := by revert x; unfold Statement; decide
theorem storeRegs (x : Reg) : Statement (.storeRegs x) := by revert x; unfold Statement; decide
theorem loadRegs (x : Reg) : Statement (.loadRegs x) := by revert x; unfold Statement; decide

end Sys2Proof.Laws.RowMatch
end

