-- ==== Sys2Proof/Tests/Slice0.lean ====
section
/-! SUPPORT. The model's own tests. Words and results are those of spec/95_test_vectors.md (the vector is named) or read off
the encodings of spec/opcode_table.json; the last part gives, for every obligation with hypotheses, values that meet them. -/

namespace Sys2Proof.Tests

open Sys2Proof.Machine

/-! ### WellFormed: an ill-formed term for each check -/

/-- `nn` is not `y ∥ n`. -/
theorem test_fields_nn_overlap_refused :
    Fields.wellFormed { op := 0x6, x := 0x1, y := 0x2, n := 0x3, nn := 0x24, nnn := 0x123 } = false := by decide

/-- `nnn` is not `x ∥ y ∥ n`. -/
theorem test_fields_nnn_overlap_refused :
    Fields.wellFormed { op := 0x6, x := 0x1, y := 0x2, n := 0x3, nn := 0x23, nnn := 0x223 } = false := by decide

theorem test_fields_well_formed :
    Fields.wellFormed { op := 0x6, x := 0x1, y := 0x2, n := 0x3, nn := 0x23, nnn := 0x123 } = true := by decide

/-- R259: a ROM of no bytes. -/
theorem test_rom_empty_refused : romWellFormed [] = false := by decide

/-- R259: a ROM of 3585 bytes. -/
theorem test_rom_too_long_refused : romWellFormed (List.replicate 3585 0) = false := by
  rw [romWellFormed, List.length_replicate]; decide

/-- R291: a ROM of 3584 bytes is accepted. -/
theorem test_rom_longest_accepted : romWellFormed (List.replicate 3584 0) = true := by
  rw [romWellFormed, List.length_replicate]; decide

/-! ### Decode: a word for every constructor, from the encodings of the opcode table -/

theorem test_decode_control :
    decodeTableWord 16 0b0000000011101110 = some .ret ∧
    decodeTableWord 16 0b0001101010111100 = some (.jp 0xABC) ∧
    decodeTableWord 16 0b0010001100000000 = some (.call 0x300) ∧
    decodeTableWord 16 0b0011000000000101 = some (.seImm 0 5) ∧
    decodeTableWord 16 0b0100000100000000 = some (.sneImm 1 0) ∧
    decodeTableWord 16 0b0101001000110000 = some (.seReg 2 3) ∧
    decodeTableWord 16 0b1001001000110000 = some (.sneReg 2 3) ∧
    decodeTableWord 16 0b1011001100000000 = some (.jpV0 0x300) := by decide

theorem test_decode_alu :
    decodeTableWord 16 0b0110101000000111 = some (.ldImm 10 7) ∧
    decodeTableWord 16 0b0111000011111111 = some (.addImm 0 0xFF) ∧
    decodeTableWord 16 0b1000000100100000 = some (.ldReg 1 2) ∧
    decodeTableWord 16 0b1000000100100001 = some (.orReg 1 2) ∧
    decodeTableWord 16 0b1000000100100010 = some (.andReg 1 2) ∧
    decodeTableWord 16 0b1000000100100011 = some (.xorReg 1 2) ∧
    decodeTableWord 16 0b1000000100100100 = some (.addReg 1 2) ∧
    decodeTableWord 16 0b1000000100100101 = some (.subReg 1 2) ∧
    decodeTableWord 16 0b1000000100100110 = some (.shrReg 1 2) ∧
    decodeTableWord 16 0b1000000100100111 = some (.subnReg 1 2) ∧
    decodeTableWord 16 0b1000000100101110 = some (.shlReg 1 2) ∧
    decodeTableWord 16 0b1100001111110000 = some (.rnd 3 0xF0) := by decide

theorem test_decode_memory :
    decodeTableWord 16 0b1010001100000000 = some (.ldI 0x300) ∧
    decodeTableWord 16 0b1111001000011110 = some (.addI 2) ∧
    decodeTableWord 16 0b1111000000101001 = some (.ldF 0) ∧
    decodeTableWord 16 0b1111000100110011 = some (.ldB 1) ∧
    decodeTableWord 16 0b1111111101010101 = some (.storeRegs 15) ∧
    decodeTableWord 16 0b1111001101100101 = some (.loadRegs 3) := by decide

theorem test_decode_display_keys_timers :
    decodeTableWord 16 0b0000000011100000 = some .cls ∧
    decodeTableWord 16 0b1101000100101111 = some (.drw 1 2 15) ∧
    decodeTableWord 16 0b1110010110011110 = some (.skp 5) ∧
    decodeTableWord 16 0b1110010110100001 = some (.sknp 5) ∧
    decodeTableWord 16 0b1111010100001010 = some (.ldVxK 5) ∧
    decodeTableWord 16 0b1111001000000111 = some (.ldVxDT 2) ∧
    decodeTableWord 16 0b1111001000010101 = some (.ldDTVx 2) ∧
    decodeTableWord 16 0b1111001000011000 = some (.ldSTVx 2) := by decide

/-- The unknown encodings of part 2.1 of the vectors. -/
theorem test_decode_unknown :
    ∀ w ∈ [0x0000, 0x00E1, 0x0123, 0x00FF, 0x5121, 0x512F, 0x8128, 0x812F, 0x8129, 0x812D] ++
      [0x9121, 0xE19F, 0xE000, 0xE1A0, 0xF100, 0xF1FF, 0xF175, 0xF185, 0xF130, 0xF11F],
      decodeTableWord 16 w = none := by decide

/-- The byte at the lower address is the high byte, and what follows the two bytes is left over. -/
theorem test_decode_byte_order : decode [0x60, 0xFF, 0x12] = .ok (.ldImm 0 0xFF, [0x12]) := by decide

theorem test_decode_too_short : decode [0x60] = .error .tooShort := by decide

/-! ### One step each: spec/95_test_vectors.md -/

/-- The machine after reset with a change, and a word where the next step fetches. -/
def start (w : Nat) (f : State → State := id) : State := (f State.reset).withFetchWord 16 w

/-- Some fields of the state one step later. -/
def after {α : Type} (s : State) (f : State → α) : Option α :=
  match step s with
  | .next t => some (f t)
  | _ => none

/-- A register file with two registers set and VF = 0x55, as the vectors of part 2.2 start. -/
def regs (x : Reg) (a : Byte) (y : Reg) (b : Byte) (s : State) : State := ((s.setV VF 0x55).setV y b).setV x a

/-- PC, and what the step reported. -/
def pcReply (t : State) : Word × Reply := (t.pc, t.reply)

/-- A normal step result without a display change or a tone. -/
def ok : Reply := .stepped ⟨.none, false, false⟩

/-- A fault's result. -/
def failed (f : StepFault) : Reply := .stepped ⟨.fault f, false, false⟩

/-- F1. -/
theorem test_jp : after (start 0x1ABC) pcReply = some (0xABC, ok) := by decide

/-- F2, then F13: PC = FFF, and the next fetch faults. -/
theorem test_fetch_at_fff : after (start 0x1FFF) (fun t => after t fun u => (pcReply u, u.fstat)) =
    some (some ((0xFFF, failed .memoryFault), 1)) := by decide

/-- F24, F6: the return address is a + 2, also at FFE. -/
theorem test_call : after (start 0x2300) (fun t => (t.pc, t.sp.val, t.stk[0])) = some (0x300, 1, 0x202) ∧
    after (start 0x2300 fun s => { s with pc := 0xFFE }) (fun t => (t.pc, t.sp.val, t.stk[0])) =
      some (0x300, 1, 0x1000) := by decide

/-- F31. -/
theorem test_call_overflow : after (start 0x2200 fun s => { s with sp := 16 })
    (fun t => (pcReply t, t.sp.val, t.fstat, t.sovfCnt)) = some ((0x202, failed .stackOverflow), 16, 2, 1) := by decide

/-- F25. -/
theorem test_ret : after (start 0x00EE fun s => { s with sp := 1, stk := s.stk.set 0 0x222 })
    (fun t => (pcReply t, t.sp.val)) = some ((0x222, ok), 0) := by decide

/-- F7: the popped 1000 is out of range and the pop is not committed. -/
theorem test_ret_out_of_range : after (start 0x00EE fun s => { s with sp := 1, stk := s.stk.set 0 0x1000 })
    (fun t => (pcReply t, t.sp.val, t.fstat)) = some ((0x200, failed .memoryFault), 1, 1) := by decide

/-- F33. -/
theorem test_ret_underflow : after (start 0x00EE) (fun t => (pcReply t, t.fstat, t.sunfCnt)) =
    some ((0x202, failed .stackUnderflow), 4, 1) := by decide

/-- F34: the strict halt, then a step that changes nothing. -/
theorem test_strict_halt : after (start 0x00EE fun s => { s with strict := true })
    (fun t => (pcReply t, t.halted, t.sunfCnt, after t pcReply)) =
    some ((0x200, failed .stackUnderflow), true, 0, some (0x200, .stepped ⟨.halted, false, false⟩)) := by decide

/-- F3, F4. -/
theorem test_seImm : after (start 0x3005 (·.setV 0 5)) pcReply = some (0x204, ok) ∧
    after (start 0x3005 (·.setV 0 4)) pcReply = some (0x202, ok) := by decide

/-- F16, F17: the skip at the end of memory. -/
theorem test_seImm_at_end : after (start 0x3000 fun s => { s with pc := 0xFFC }) pcReply = some (0xFFC, failed .memoryFault) ∧
    after (start 0x3000 fun s => { s.setV 0 1 with pc := 0xFFC }) pcReply = some (0xFFE, ok) := by decide

/-- F5, F5b. -/
theorem test_sneImm : after (start 0x4100) pcReply = some (0x202, ok) ∧
    after (start 0x4100 (·.setV 1 1)) pcReply = some (0x204, ok) := by decide

/-- F8, F9. -/
theorem test_seReg : after (start 0x5230 (regs 2 0x7F 3 0x7F)) pcReply = some (0x204, ok) ∧
    after (start 0x5230 (regs 2 0x7F 3 0x7E)) pcReply = some (0x202, ok) := by decide

/-- F11, F12. -/
theorem test_sneReg : after (start 0x9230 (regs 2 1 3 2)) pcReply = some (0x204, ok) ∧
    after (start 0x9220 (·.setV 2 1)) pcReply = some (0x202, ok) := by decide

/-- F21, F22. -/
theorem test_jpV0 : after (start 0xBF00 (·.setV 0 0xFF)) pcReply = some (0xFFF, ok) ∧
    after (start 0xBF01 (·.setV 0 0xFF)) pcReply = some (0x200, failed .memoryFault) := by decide

/-- F14: nothing is committed. -/
theorem test_final_pc_check : after (start 0x6012 fun s => { s with pc := 0xFFE }) (fun t => (pcReply t, t.v[0], t.fstat)) =
    some ((0xFFE, failed .memoryFault), 0, 1) := by decide

/-- The unknown word at 200, and F26 at FFE. -/
theorem test_unknown : after (start 0x8128) (fun t => (pcReply t, t.fstat, t.unkCnt)) =
      some ((0x202, failed .unknownOpcode), 8, 1) ∧
    after (start 0x0000 fun s => { s with pc := 0xFFE }) (fun t => (pcReply t, t.fstat, t.unkCnt)) =
      some ((0xFFE, failed .memoryFault), 1, 0) := by decide

/-- A1. -/
theorem test_ldImm : after (start 0x6A07 (·.setV VF 0x55)) (fun t => (t.v[10], t.v[15], t.pc)) = some (7, 0x55, 0x202) := by
  decide

/-- A2, A3. -/
theorem test_addImm : after (start 0x7001 (regs 0 0xFF 1 0)) (fun t => (t.v[0], t.v[15])) = some (0, 0x55) ∧
    after (start 0x70FF (regs 0 5 1 0)) (fun t => (t.v[0], t.v[15])) = some (4, 0x55) := by decide

/-- A4. -/
theorem test_ldReg : after (start 0x8010 (regs 0 0x12 1 0x34)) (fun t => (t.v[0], t.v[1], t.v[15])) =
    some (0x34, 0x34, 0x55) := by decide

/-- A5. -/
theorem test_orReg : after (start 0x8011 (regs 0 0xF0 1 0x0F)) (fun t => (t.v[0], t.v[1], t.v[15])) =
    some (0xFF, 0x0F, 0x55) := by decide

/-- A6. -/
theorem test_andReg : after (start 0x8012 (regs 0 0xF0 1 0x3C)) (fun t => (t.v[0], t.v[15])) = some (0x30, 0x55) := by decide

/-- A27. -/
theorem test_xorReg : after (start 0x8003 (regs 0 0x5A 1 0)) (fun t => (t.v[0], t.v[15])) = some (0, 0x55) := by decide

/-- A9, A10: the carry's edge. -/
theorem test_addReg : after (start 0x8014 (regs 0 0x80 1 0x7F)) (fun t => (t.v[0], t.v[15])) = some (0xFF, 0) ∧
    after (start 0x8014 (regs 0 0x80 1 0x80)) (fun t => (t.v[0], t.v[15])) = some (0, 1) := by decide

/-- A30, A31: the flag overwrites the sum in VF. -/
theorem test_addReg_vf : after (start 0x8F14 (regs VF 0xFF 1 2)) (·.v[15]) = some 1 ∧
    after (start 0x8F14 (regs VF 1 1 2)) (·.v[15]) = some 0 := by decide

/-- A13, A14. -/
theorem test_subReg : after (start 0x8015 (regs 0 3 1 10)) (fun t => (t.v[0], t.v[15])) = some (0xF9, 0) ∧
    after (start 0x8015 (regs 0 7 1 7)) (fun t => (t.v[0], t.v[15])) = some (0, 0) := by decide

/-- A16, A34. -/
theorem test_subnReg : after (start 0x8017 (regs 0 3 1 10)) (fun t => (t.v[0], t.v[15])) = some (7, 1) ∧
    after (start 0x8F17 (regs VF 1 1 2)) (·.v[15]) = some 1 := by decide

/-- A19, A35. -/
theorem test_shrReg : after (start 0x8016 (regs 0 0xAA 1 5)) (fun t => (t.v[0], t.v[1], t.v[15])) = some (2, 5, 1) ∧
    after (start 0x8F16 (regs VF 0x99 1 7)) (·.v[15]) = some 3 := by decide

/-- A22, A36. -/
theorem test_shlReg : after (start 0x801E (regs 0 0 1 0x81)) (fun t => (t.v[0], t.v[1], t.v[15])) = some (2, 0x81, 1) ∧
    after (start 0x8F1E (regs VF 0x99 1 0x81)) (·.v[15]) = some 2 := by decide

/-- A43. -/
theorem test_rnd : after { start 0xC3F0 with host := [.step 0x5C] } (fun t => (t.v[3], t.pc)) = some (0x50, 0x202) := by
  decide

/-- M2. -/
theorem test_ldI : after (start 0xAFFF) (fun t => (t.idx, t.pc)) = some (0xFFF, 0x202) := by decide

/-- M4, M6. -/
theorem test_addI : after (start 0xF21E fun s => { regs 2 1 3 0 s with idx := 0xFFF }) (fun t => (t.idx, t.v[15])) =
      some (0x1000, 0x55) ∧
    after (start 0xF21E fun s => { s.setV 2 0xFF with idx := 0xFF01 }) (·.idx) = some 0 := by decide

/-- M7. -/
theorem test_ldF : after (start 0xF029 (·.setV 0 0x0F)) (·.idx) = some 0x9B ∧
    after (start 0xF029 (·.setV 0 0x1A)) (·.idx) = some 0x82 := by decide

/-- M8, M15. -/
theorem test_ldB : after (start 0xF033 fun s => { s.setV 0 234 with idx := 0x300 })
      (fun t => (t.mem.read 0x300, t.mem.read 0x301, t.mem.read 0x302, t.mem.read 0x303, t.idx)) =
      some (2, 3, 4, 0, 0x300) ∧
    after (start 0xF033 fun s => { s.setV 0 123 with idx := 0xFFE }) (fun t => (t.mem.read 0xFFE, pcReply t)) =
      some (0, 0x200, failed .memoryFault) := by decide

/-- M11, M12. -/
theorem test_storeRegs : after (start 0xF055 fun s => { s.setV 0 1 with idx := 0xFFF }) (fun t => (t.mem.read 0xFFF, t.idx)) =
      some (1, 0xFFF) ∧
    after (start 0xF155 fun s => { s.setV 0 1 with idx := 0xFFF }) (fun t => (t.mem.read 0xFFF, pcReply t)) =
      some (0, 0x200, failed .memoryFault) := by decide

/-- The shape of M16: the range is taken and the next register is left. -/
theorem test_loadRegs : after (start 0xF165 fun s =>
      { regs 2 0x11 1 0x11 s with idx := 0x400, mem := s.mem.fill 0x400 [0xA0, 0xA1, 0xA2] })
      (fun t => (t.v[0], t.v[1], t.v[2], t.idx)) = some (0xA0, 0xA1, 0x11, 0x400) := by decide

/-- M19: the address is not reduced. -/
theorem test_loadRegs_no_wrap : after (start 0xF065 fun s => { s with idx := 0xFFFF }) pcReply =
    some (0x200, failed .memoryFault) := by decide

/-- DR13, the first of its two steps. -/
theorem test_cls : after (start 0x00E0 fun s => { s with disp := (plotBit 31 63 true ⟨s.disp, false⟩).disp })
    (fun t => (t.disp.cell 31 63, t.reply)) = some (false, .stepped ⟨.none, true, false⟩) := by decide

/-- DR10: one cell set, one cleared, and the collision. -/
theorem test_drw : after (start 0xD011 fun s =>
      { s with idx := 0x300, mem := s.mem.write 0x300 0xC0, disp := (plotBit 0 1 true ⟨s.disp, false⟩).disp })
      (fun t => (t.disp.cell 0 0, t.disp.cell 0 1, t.v[15], t.reply)) =
    some (true, false, 1, .stepped ⟨.none, true, false⟩) := by decide

/-- DR2: the start wraps, the rest is clipped; and DR9's fault. -/
theorem test_drw_clips : after (start 0xD011 fun s =>
      { s.setV 0 0x3C with idx := 0x300, mem := s.mem.write 0x300 0xFF })
      (fun t => (t.disp.cell 0 59, t.disp.cell 0 60, t.disp.cell 0 63, t.disp.cell 0 0, t.v[15])) =
      some (false, true, true, false, 0) ∧
    after (start 0xD012 fun s => { s.setV 1 31 with idx := 0xFFF }) pcReply = some (0x200, failed .memoryFault) := by decide

/-- K6, K3. -/
theorem test_skp : after (start 0xE09E fun s => { s.setV 0 0x15 with key := 0x20 }) pcReply = some (0x204, ok) ∧
    after (start 0xE09E fun s => { s.setV 0 5 with key := 0xFFDF }) pcReply = some (0x202, ok) := by decide

/-- K5, K4. -/
theorem test_sknp : after (start 0xE0A1 (·.setV 0 5)) pcReply = some (0x204, ok) ∧
    after (start 0xE0A1 fun s => { s.setV 0 5 with key := 0x20 }) pcReply = some (0x202, ok) := by decide

/-- K10, K12. -/
theorem test_ldVxK : after (start 0xF30A (·.setV 3 0x77)) (fun t => (t.v[3], pcReply t)) = some (0x77, 0x200, ok) ∧
    after (start 0xF30A fun s => { s with key := 0x90 }) (fun t => (t.v[3], pcReply t)) = some (4, 0x202, ok) := by decide

/-- T1. -/
theorem test_ldVxDT : after (start 0xF207 fun s => { s with dt := 0x3C }) (fun t => (t.v[2], t.dt)) = some (0x3C, 0x3C) := by
  decide

/-- T2. -/
theorem test_ldDTVx : after (start 0xF215 (·.setV 2 0xFF)) (fun t => (t.dt, t.st)) = some (0xFF, 0) := by decide

/-- T3: the result already reports the tone. -/
theorem test_ldSTVx : after (start 0xF218 (·.setV 2 1)) (fun t => (t.st, t.reply)) =
    some (1, .stepped ⟨.none, false, true⟩) := by decide

/-- T5 and T7. -/
theorem test_tick : after { State.reset with host := [.tick], dt := 2, st := 1 } (fun t => (t.dt, t.st, t.tonePort)) =
      some (1, 0, some false) ∧
    after { State.reset with host := [.tick], halted := true, dt := 5 } (·.dt) = some 4 := by decide

/-- R230. -/
theorem test_setKeys : after { State.reset with host := [.setKeys 0x80], key := 1 } (fun t => (t.key, t.host)) =
    some (0x80, []) := by decide

/-- S1's ROM loaded: the font, the program and PC (R38, R61). -/
theorem test_load : after { State.powerOn with host := [.load [0x60, 0xFF, 0x61, 0x01, 0x80, 0x14] none false] }
    (fun t => (t.mem.read 0x050, t.mem.read 0x200, t.mem.read 0x205, t.mem.read 0x206, t.pc, t.reply)) =
    some (0xF0, 0x60, 0x14, 0, 0x200, .loadOk) := by decide

/-- R259. -/
theorem test_load_error : after { State.reset with host := [.load [] none false] } (fun t => (t.loaded, t.reply, t.snapshot)) =
    some (false, .loadError, none) := by decide

/-- Memory keeps its canonical form: a byte that reads as reset left it is not listed. -/
theorem test_memory_canonical : Memory.write (Memory.write [] 0x300 7) 0x300 0 = [] ∧
    Memory.write [] 0x050 0xF0 = [] ∧ Memory.write (Memory.write [] 0x301 1) 0x300 2 = [(0x300, 2), (0x301, 1)] := by decide

/-! ### Values that meet the hypotheses of the obligations, each clause at the edge of its range -/

/-- A jump to itself at FFE, the last place an instruction can be fetched from. -/
def lastWord : State := start 0x1FFE fun s => { s with pc := 0xFFE }

theorem witness_StepRunsDecodedInstruction :
    lastWord.loaded = true ∧ lastWord.halted = false ∧ lastWord.pc.toNat = 0xFFE ∧ lastWord.host = [] ∧
    decodeWord (wordOfBytes (lastWord.mem.read lastWord.pc.toNat) (lastWord.mem.read (lastWord.pc.toNat + 1))) =
      .instr (.jp 0xFFE) := by decide

theorem witness_FetchReadsTwoBytesOrFaults :
    lastWord.pc.toNat ≤ 0xFFE ∧ 0xFFE < ({ State.reset with pc := 0xFFF } : State).pc.toNat ∧
    State.reset.loaded = true ∧ State.reset.halted = false ∧
    ({ State.reset with pc := 0xFFF, host := [.step 7] } : State).host = .step 7 :: [] := by decide

/-- An unknown word at a place. -/
def unknownAt (pc : Word) : State := { start 0x8128 fun s => { s with pc := pc } with host := [.step 0] }

theorem witness_UnknownWordIsRejected :
    decodeWord (wordOfBytes ((unknownAt 0xFFD).mem.read 0xFFD) ((unknownAt 0xFFD).mem.read 0xFFE)) = .unknown .unknown8 ∧
    (unknownAt 0xFFD).pc = 0xFFD ∧ (unknownAt 0xFFD).loaded = true ∧ (unknownAt 0xFFD).halted = false ∧
    (unknownAt 0xFFD).strict = false ∧ ({ unknownAt 0xFFD with strict := true } : State).strict = true ∧
    decodeWord (wordOfBytes ((unknownAt 0xFFE).mem.read 0xFFE) ((unknownAt 0xFFE).mem.read 0xFFF)) = .unknown .unknown8 ∧
    (unknownAt 0xFFE).pc = 0xFFE := by decide

theorem witness_NotLoadedRefusesAllButLoad :
    State.powerOn.loaded = false ∧ State.powerOn.host = [] ∧ (∀ rom font strict, Event.tick ≠ .load rom font strict) ∧
    (∀ rom font strict, Event.setKeys 1 ≠ .load rom font strict) ∧
    (∀ rom font strict, Event.step 1 ≠ .load rom font strict) := by
  refine ⟨rfl, rfl, ?_, ?_, ?_⟩ <;> intros <;> simp

/-- I one past the last address. -/
def idxPast : State := { State.reset with idx := 0x1000 }

theorem witness_MemoryFaultIsPrecise :
    exec (.loadRegs 0) idxPast = .next idxPast.afterMemoryFault ∧
    idxPast.afterMemoryFault.reply = .stepped ⟨.fault .memoryFault, false, false⟩ ∧
    (∃ t, perform (.step 7) { State.reset with pc := 0xFFF } = .next t ∧
      t.reply = .stepped ⟨.fault .memoryFault, false, false⟩) := ⟨rfl, rfl, _, rfl, rfl⟩

/-- PC at a place near the end of memory. -/
def near (pc : Word) (f : State → State := id) : State := f { State.reset with pc := pc }

theorem witness_FinalPcCheckFaults :
    0xFFD < (near 0xFFE).pc.toNat ∧ Instr.cls ≠ .ret ∧ (∀ nnn, Instr.cls ≠ .jp nnn ∧ Instr.cls ≠ .call nnn ∧ Instr.cls ≠ .jpV0 nnn) ∧
    (∀ x, Instr.cls ≠ .ldVxK x) ∧
    0xFFB < (near 0xFFC).pc.toNat ∧ (near 0xFFC).v[(0 : Reg)] = (near 0xFFC).v[(1 : Reg)] ∧
    (near 0xFFC (·.setV 0 1)).v[(0 : Reg)] ≠ (near 0xFFC (·.setV 0 1)).v[(1 : Reg)] ∧
    (near 0xFFC).key.getLsbD 0 = false ∧ (near 0xFFC fun s => { s with key := 1 }).key.getLsbD 0 = true ∧
    0xFFF < (0xFFF#12).toNat + (near 0x200 (·.setV 0 1)).v[V0].toNat ∧
    (near 0x200 fun s => { s with sp := 1, stk := s.stk.set 0 0x1000 }).sp.val = (0 : Fin 16).val + 1 ∧
    0xFFF < (near 0x200 fun s => { s with sp := 1, stk := s.stk.set 0 0x1000 }).stk[(0 : Fin 16)].toNat ∧
    (near 0xFFE).sp.val = 0 ∧ (near 0xFFE fun s => { s with sp := 16 }).sp.val = 16 := by
  refine ⟨by decide, by decide, fun _ => by decide +revert, fun _ => by decide +revert, by decide⟩

theorem witness_CallPushesReturnAddress :
    (near 0x200 fun s => { s with sp := 15 }).sp.val = (15 : Fin 16).val ∧ State.reset.sp.val = (0 : Fin 16).val ∧
    (near 0xFFD fun s => { s with sp := 16 }).sp.val = 16 ∧ (near 0xFFD).pc.toNat ≤ 0xFFD ∧
    (near 0xFFD).strict = false ∧ (near 0xFFD fun s => { s with strict := true }).strict = true := by decide

theorem witness_ReturnPopsIntoPc :
    (near 0x200 fun s => { s with sp := 16, stk := s.stk.set 15 0xFFF }).sp.val = (15 : Fin 16).val + 1 ∧
    (near 0x200 fun s => { s with sp := 16, stk := s.stk.set 15 0xFFF }).stk[(15 : Fin 16)].toNat ≤ 0xFFF ∧
    (near 0xFFD).sp.val = 0 ∧ (near 0xFFD).pc.toNat ≤ 0xFFD ∧ (near 0xFFD).strict = false ∧
    (near 0xFFD fun s => { s with strict := true }).strict = true := by decide

theorem witness_SkipOnImmediate :
    (near 0xFFB).v[(0 : Reg)] = 0#8 ∧ (near 0xFFB).v[(0 : Reg)] ≠ 1#8 ∧ (near 0xFFB).pc.toNat ≤ 0xFFB ∧
    (near 0xFFD).v[(0 : Reg)] = 0#8 ∧ (near 0xFFD).v[(0 : Reg)] ≠ 1#8 ∧ (near 0xFFD).pc.toNat ≤ 0xFFD := by decide

theorem witness_SkipOnRegister :
    (near 0xFFB (·.setV 0 1)).v[(1 : Reg)] = (near 0xFFB (·.setV 0 1)).v[(2 : Reg)] ∧
    (near 0xFFB (·.setV 0 1)).v[(0 : Reg)] ≠ (near 0xFFB (·.setV 0 1)).v[(1 : Reg)] ∧
    (near 0xFFB (·.setV 0 1)).pc.toNat ≤ 0xFFB ∧
    (near 0xFFD (·.setV 0 1)).v[(0 : Reg)] ≠ (near 0xFFD (·.setV 0 1)).v[(1 : Reg)] ∧
    (near 0xFFD (·.setV 0 1)).pc.toNat ≤ 0xFFD := by decide

theorem witness_JumpWithOffsetAddsV0 :
    (0xF00#12).toNat + (State.reset.setV 0 0xFF).v[V0].toNat ≤ 0xFFF ∧
    (0xFFF#12).toNat + State.reset.v[V0].toNat ≤ 0xFFF := by decide

/-- A call at 0x200 of a return at 0xFFE, with one slot free. -/
def callReturn : State := { start 0x2FFE fun s => { s with mem := s.mem.fill 0xFFE [0x00, 0xEE] } with sp := 15 }

theorem witness_CallThenReturnComesBack :
    callReturn.loaded = true ∧ callReturn.halted = false ∧ callReturn.host = [] ∧ callReturn.pc.toNat ≤ 0xFFD ∧
    (0xFFE#12).toNat ≤ 0xFFE ∧ callReturn.sp.val < 16 ∧
    decodeWord (wordOfBytes (callReturn.mem.read callReturn.pc.toNat) (callReturn.mem.read (callReturn.pc.toNat + 1))) =
      .instr (.call 0xFFE) ∧
    decodeWord (wordOfBytes (callReturn.mem.read 0xFFE) (callReturn.mem.read 0xFFF)) = .instr .ret := by decide

theorem witness_ControlTransferFrame :
    (∃ t, exec .ret State.reset = .next t) ∧ (∃ t, exec (.call 0x300) State.reset = .next t) ∧
    (∃ t, exec (.seReg 1 2) State.reset = .next t) ∧ (∃ t, exec (.sneImm 1 2) State.reset = .next t) :=
  ⟨⟨_, rfl⟩, ⟨_, rfl⟩, ⟨_, rfl⟩, ⟨_, rfl⟩⟩

/-- The hypothesis of every statement about an instruction that goes on to the next one: LoadAndAddImmediate, RegisterCopy,
LogicIsBitwiseWithoutFlag, AddSetsCarry, SubtractSetsStrictFlag, ShiftsReadVy, RandomIsMasked, LoadIndexImmediate,
IndexArithmetic, ClearScreenClearsAll, TimerInstructionsMoveOneByte. The register premises x ≠ VF, k ≠ x and k ≠ VF hold of
x = 0, k = 1. -/
theorem witness_goes_on_to_next :
    (near 0xFFD).pc.toNat ≤ 0xFFD ∧ (0 : Reg) ≠ VF ∧ (1 : Reg) ≠ 0 ∧ (1 : Reg) ≠ VF := by decide

theorem witness_OnlyFlagWritersTouchVF :
    ∃ t, exec (.ldImm VF 1) State.reset = .next t ∧ t.v[VF] ≠ State.reset.v[VF] := ⟨_, rfl, by decide⟩

theorem witness_memory_instructions :
    State.reset.mem.wf ∧ (near 0xFFD).pc.toNat ≤ 0xFFD := by decide

theorem witness_BcdStoresDigits :
    (near 0x200 fun s => { s with idx := 0xFFD }).idx.toNat + 2 ≤ 4095 ∧
    4095 < (near 0x200 fun s => { s with idx := 0xFFE }).idx.toNat + 2 := by decide

theorem witness_StoreAndLoadRegisters :
    (near 0x200 fun s => { s with idx := 0xFF0 }).idx.toNat + (15 : Reg).val ≤ 4095 ∧
    4095 < (near 0x200 fun s => { s with idx := 0xFF1 }).idx.toNat + (15 : Reg).val ∧
    (1 : Reg).val ≤ (1 : Reg).val ∧ (1 : Reg).val < (2 : Reg).val := by decide

/-- The state one store later is itself a later state with the same I and bytes. -/
theorem witness_StoreLoadRoundTrip :
    State.reset.mem.wf ∧ (near 0x200 (·.setV 0 9)).idx.toNat + (15 : Reg).val ≤ 4095 ∧
    ∃ t, exec (.storeRegs 15) (near 0x200 (·.setV 0 9)) = .next t ∧ t.pc.toNat ≤ 0xFFD := by
  exact ⟨by decide, by decide, _, rfl, by decide⟩

theorem witness_StoreIsSeenByNextFetch :
    (near 0xFFD fun s => { s with idx := 0xFF0 }).mem.wf ∧ (near 0xFFD).pc.toNat ≤ 0xFFD ∧
    (near 0xFFD fun s => { s with idx := 0xFF0 }).idx.toNat + (15 : Reg).val ≤ 4095 ∧
    (near 0xFFD fun s => { s with idx := 0xFFD }).idx.toNat + 2 ≤ 4095 ∧ (0xFFE#16).toNat ≤ 0xFFE := by decide

theorem witness_EachStateHasItsWriters :
    ∃ t, exec (.ldImm 0 1) State.reset = .next t ∧
      (∀ x, Instr.ldImm 0 1 ≠ .ldB x ∧ Instr.ldImm 0 1 ≠ .storeRegs x) ∧ Instr.ldImm 0 1 ≠ .cls ∧
      (∀ x y n, Instr.ldImm 0 1 ≠ .drw x y n) ∧ (∀ nnn, Instr.ldImm 0 1 ≠ .ldI nnn) ∧
      (∀ x, Instr.ldImm 0 1 ≠ .addI x ∧ Instr.ldImm 0 1 ≠ .ldF x) ∧ Instr.ldImm 0 1 ≠ .ret ∧
      (∀ nnn, Instr.ldImm 0 1 ≠ .call nnn) ∧ (∀ x, Instr.ldImm 0 1 ≠ .ldDTVx x) ∧ (∀ x, Instr.ldImm 0 1 ≠ .ldSTVx x) := by
  refine ⟨_, rfl, ?_⟩; simp

theorem witness_DrawXorsSpriteAndReportsCollision :
    ((0 : Fin 16).val = 0 ∨ (near 0xFFD fun s => { s with idx := 0xFFFF }).idx.toNat + (0 : Fin 16).val ≤ 4096) ∧
    (near 0xFFD fun s => { s with idx := 0xFF1 }).idx.toNat + (15 : Fin 16).val ≤ 4096 ∧
    (15 : Fin 16).val ≠ 0 ∧ 4096 < (near 0xFFD fun s => { s with idx := 0xFF2 }).idx.toNat + (15 : Fin 16).val ∧
    (0 : Reg) ≠ VF ∧ (near 0xFFD).pc.toNat ≤ 0xFFD := by decide

theorem witness_DrawTwiceRestores :
    (near 0xFFB).pc.toNat ≤ 0xFFB ∧ (0 : Reg) ≠ VF ∧ (1 : Reg) ≠ VF ∧ (near 0xFFB).idx.toNat + (1 : Fin 16).val ≤ 4096 ∧
    ∃ t u, exec (.drw 0 1 1) (near 0xFFB) = .next t ∧ exec (.drw 0 1 1) t = .next u := by
  exact ⟨by decide, by decide, by decide, by decide, _, _, rfl, rfl⟩

/-- The second clause, also of a halted machine and at a fetch that faults. -/
theorem witness_StepResultReportsToneAndDisplay :
    State.reset.loaded = true ∧ ({ State.reset with halted := true, pc := 0xFFF } : State).loaded = true := by decide

theorem witness_KeySkipsTestLowNibble :
    (near 0xFFB fun s => { s.setV 0 0x1F with key := 0x8000 }).key.getLsbD
      ((near 0xFFB fun s => { s.setV 0 0x1F with key := 0x8000 }).v[(0 : Reg)].toNat % 16) = true ∧
    (near 0xFFB (·.setV 0 0x1F)).key.getLsbD ((near 0xFFB (·.setV 0 0x1F)).v[(0 : Reg)].toNat % 16) = false ∧
    (near 0xFFB).pc.toNat ≤ 0xFFB ∧ (near 0xFFD).pc.toNat ≤ 0xFFD := by decide

theorem witness_KeyWaitTakesLowestKey :
    (near 0xFFF).key = 0 ∧ (near 0xFFF).pc.toNat ≤ 0xFFF ∧
    (near 0xFFD fun s => { s with key := 0x8000 }).key.getLsbD (15 : Reg).val = true ∧
    (∀ j : Reg, j.val < (15 : Reg).val → (near 0xFFD fun s => { s with key := 0x8000 }).key.getLsbD j.val = false) ∧
    (near 0xFFD).pc.toNat ≤ 0xFFD := by decide

/-- TickCountsBothTimersDown, TicksDecayToZero and SetKeysOverwritesLatch, halted and not. -/
theorem witness_timer_and_key_events :
    ({ State.reset with host := [.tick], halted := true } : State).loaded = true ∧
    ({ State.reset with host := [.tick] } : State).host = .tick :: [] ∧
    ({ State.reset with host := [.setKeys 0xFFFF] } : State).host = .setKeys 0xFFFF :: [] ∧
    (∃ t, exec .cls State.reset = .next t) ∧ (∃ t, perform .tick State.reset = .next t) :=
  ⟨rfl, rfl, rfl, ⟨_, rfl⟩, ⟨_, rfl⟩⟩

theorem witness_LoadResetsEverything :
    1 ≤ (List.replicate 3584 (0 : Byte)).length ∧ (List.replicate 3584 (0 : Byte)).length ≤ 3584 ∧ 1 ≤ ([0] : List Byte).length ∧
    ({ State.powerOn with host := [.load [0] none true] } : State).host = .load [0] none true :: [] := by
  simp only [List.length_replicate]; decide

theorem witness_BadRomIsLoadError :
    ([] : List Byte).length = 0 ∧ 3584 < (List.replicate 3585 (0 : Byte)).length ∧
    ({ State.reset with host := [.load [] none true] } : State).host = .load [] none true :: [] := by
  refine ⟨rfl, ?_, rfl⟩; rw [List.length_replicate]; decide

theorem witness_StepKeepsInvariant : State.reset.Inv ∧ ∃ t, step { State.reset with host := [.tick] } = .next t :=
  ⟨by decide, _, rfl⟩

theorem witness_FaultRecordIsSticky :
    (∀ rom font strict, Event.tick ≠ .load rom font strict) ∧
    (∃ t, perform .tick { State.reset with fstat := 8, halted := true, strict := true } = .next t) :=
  ⟨by intros; simp, _, rfl⟩

theorem witness_HaltedMachineAnswersHalted :
    ({ State.reset with fstat := 8, halted := true, strict := true } : State).loaded = true ∧
    ({ State.reset with fstat := 8, halted := true, strict := true } : State).halted = true ∧
    (∀ rom font strict, Event.step 3 ≠ .load rom font strict) := ⟨rfl, rfl, by intros; simp⟩

theorem witness_SelfJumpIsFixedPoint :
    lastWord.loaded = true ∧ lastWord.halted = false ∧ lastWord.selfJump := by decide

theorem witness_DiagnosticsAreInvisible :
    (∃ t, exec .ret State.reset = .next t) ∧
    (∃ t, exec .ret { State.reset with fstat := 15, unkCnt := 1, sovfCnt := 2, sunfCnt := 0xFFFFFFFF } = .next t) :=
  ⟨⟨_, rfl⟩, ⟨_, rfl⟩⟩

end Sys2Proof.Tests
end

section
/-! PROOFS. The six fields of a word as numbers and their overlap (spec/30_encoding.md R92). -/

namespace Sys2Proof

/-- The `len` bits of a word from bit `start` on, by division and remainder. -/
theorem toNat_extractLsb'_eq_div_mod (w : Word) (start len : Nat) :
    (w.extractLsb' start len).toNat = w.toNat / 2 ^ start % 2 ^ len := by
  rw [BitVec.extractLsb'_toNat, Nat.shiftRight_eq_div_pow]

/-- `op` needs no remainder: nothing stands above bit 15. -/
@[simp] theorem toNat_ofWord_op (w : Word) : (Fields.ofWord w).op.toNat = w.toNat / 4096 := by
  have hw : w.toNat < 65536 := w.isLt
  have hop : (Fields.ofWord w).op.toNat = w.toNat / 4096 % 16 := toNat_extractLsb'_eq_div_mod w 12 4
  omega

@[simp] theorem toNat_ofWord_x (w : Word) : (Fields.ofWord w).x.toNat = w.toNat / 256 % 16 :=
  toNat_extractLsb'_eq_div_mod w 8 4

@[simp] theorem toNat_ofWord_y (w : Word) : (Fields.ofWord w).y.toNat = w.toNat / 16 % 16 :=
  toNat_extractLsb'_eq_div_mod w 4 4

@[simp] theorem toNat_ofWord_n (w : Word) : (Fields.ofWord w).n.toNat = w.toNat % 16 :=
  BitVec.extractLsb'_toNat 0 4 w

@[simp] theorem toNat_ofWord_nn (w : Word) : (Fields.ofWord w).nn.toNat = w.toNat % 256 :=
  BitVec.extractLsb'_toNat 0 8 w

@[simp] theorem toNat_ofWord_nnn (w : Word) : (Fields.ofWord w).nnn.toNat = w.toNat % 4096 :=
  BitVec.extractLsb'_toNat 0 12 w

/-- `nn = y ∥ n`: the two slices meet at bit 4. -/
theorem ofWord_nn_eq_append (w : Word) : (Fields.ofWord w).nn = (Fields.ofWord w).y ++ (Fields.ofWord w).n :=
  (BitVec.extractLsb'_append_extractLsb'_eq_extractLsb' (start₁ := 0) (len₁ := 4) rfl).symm

/-- `nnn = x ∥ y ∥ n`: `x ∥ y` is the slice from bit 4 to 11, and `n` continues it below. -/
theorem ofWord_nnn_eq_append (w : Word) :
    (Fields.ofWord w).nnn = (Fields.ofWord w).x ++ (Fields.ofWord w).y ++ (Fields.ofWord w).n := by
  have hxy : (Fields.ofWord w).x ++ (Fields.ofWord w).y = w.extractLsb' 4 8 :=
    BitVec.extractLsb'_append_extractLsb'_eq_extractLsb' (start₁ := 4) (len₁ := 4) rfl
  rw [hxy]
  exact (BitVec.extractLsb'_append_extractLsb'_eq_extractLsb' (start₁ := 0) (len₁ := 4) rfl).symm

/-- Settles O4: each field is its slice's number, adjacent slices append, and a word is its high byte and `nn`. -/
theorem fieldsAreBitSlices : Obligations.FieldsAreBitSlices := fun w =>
  ⟨toNat_ofWord_op w, toNat_ofWord_x w, toNat_ofWord_y w, toNat_ofWord_n w, toNat_ofWord_nn w, toNat_ofWord_nnn w,
    ofWord_nn_eq_append w, ofWord_nnn_eq_append w, (wordOfBytes_bytes w).symm⟩

end Sys2Proof
end

section
/-! PROOFS. The fetch at PC, and the Step of a fetch past the last valid byte (spec/40_step_and_dispatch.md R121). -/

namespace Sys2Proof

open Machine

/-- A word's number from its bytes' numbers: the high byte weighs 256 (the spec's decision D1, log 8). -/
theorem toNat_wordOfBytes (hi lo : Byte) : (wordOfBytes hi lo).toNat = 256 * hi.toNat + lo.toNat := by
  have hlo : lo.toNat < 2 ^ 8 := lo.isLt
  rw [wordOfBytes, BitVec.toNat_append, ← Nat.shiftLeft_add_eq_or_of_lt hlo, Nat.shiftLeft_eq, Nat.mul_comm]

/-- A fetch past the last valid byte, as claims write its MemoryFault (the spec's decision D4, log 9). -/
theorem runInstruction_noFetch_eq {s : State} (hp : 0xFFE < s.pc.toNat) :
    runInstruction s = .next s.afterMemoryFault := by
  rw [runInstruction_noFetch hp, takeFault_memoryFault_eq]

/-- Settles O8: PC up to 0xFFE fetches both bytes, and PC above it is a MemoryFault. -/
theorem fetchReadsTwoBytesOrFaults : Obligations.FetchReadsTwoBytesOrFaults := fun s =>
  ⟨fun hp => ⟨fetch_of_le s hp, toNat_wordOfBytes⟩,
    fun hp => ⟨fetch_of_gt s hp, fun _ _ hl hh hs =>
      (step_pending_step hl hh hs).trans (runInstruction_noFetch_eq hp)⟩⟩

end Sys2Proof
end

section
/-! PROOFS. The word of an instruction decodes to it (spec/30_encoding.md R95), also where a claim writes it as a number. -/

namespace Sys2Proof

/-- Dispatch finds each instruction in the fields of its own word. -/
theorem decodeWord_encodeWord (i : Instr) : decodeWord (encodeWord i) = .instr i := by
  cases i
  case cls => rfl
  case ret => rfl
  case jp | call | ldI | jpV0 => simp [decodeWord, encodeWord, decodeFields, ofWord_formNNN]
  case seImm | sneImm | ldImm | addImm | rnd =>
    simp [decodeWord, encodeWord, decodeFields, ofWord_formXNN, regOf_nibbleOf]
  case seReg | sneReg | drw =>
    simp [decodeWord, encodeWord, decodeFields, ofWord_formXYN, regOf_nibbleOf]
  case ldReg | orReg | andReg | xorReg | addReg | subReg | shrReg | subnReg | shlReg =>
    simp [decodeWord, encodeWord, decodeFields, decodeOp8, ofWord_formXYN, regOf_nibbleOf]
  case skp | sknp =>
    simp [decodeWord, encodeWord, formXFF, decodeFields, decodeOpE, ofWord_formXNN, regOf_nibbleOf]
  case ldVxDT | ldDTVx | ldSTVx | addI | ldVxK | ldF | ldB | storeRegs | loadRegs =>
    simp [decodeWord, encodeWord, formXFF, decodeFields, decodeOpF, ofWord_formXNN, regOf_nibbleOf]

/-- A table word that is an instruction's word decodes to that instruction. -/
theorem decodeTableWord_of_eq_encodeWord {nbits w : Nat} {i : Instr} (h : tableWord nbits w = encodeWord i) :
    decodeTableWord nbits w = some i := by
  rw [decodeTableWord_eq, h, decodeWord_encodeWord]

end Sys2Proof
end

section
/-! PROOFS. The direct jump and the four skips (spec/41_control_flow.md R143 to R146, R148). -/

namespace Sys2Proof

open Machine

/-- A jump target has 12 bits, so the final PC check cannot fail (R143). -/
theorem toNat_absTarget_le (nnn : Addr) : (absTarget nnn).toNat ≤ 0xFFF := by
  have hn : nnn.toNat < 4096 := nnn.isLt
  rw [absTarget, BitVec.toNat_setWidth]
  omega

/-- The model's answer of a normal step, as claims write it (R128). -/
theorem answer_none_eq (s : State) (pc : Word) :
    { s with pc := pc }.answer .none false = { s with pc := pc, reply := s.normalReply } := rfl

/-- A direct jump commits the state it began in, at its target. -/
theorem exec_jp_eq (nnn : Addr) (s : State) :
    exec (.jp nnn) s = .next { s with pc := nnn.setWidth 16, reply := s.normalReply } := by
  calc exec (.jp nnn) s
    _ = commit s s (absTarget nnn).toNat false := rfl
    _ = .next ({ s with pc := BitVec.ofNat 16 (absTarget nnn).toNat }.answer .none false) :=
      commit_of_le (toNat_absTarget_le nnn)
    _ = .next { s with pc := nnn.setWidth 16, reply := s.normalReply } := by
      rw [answer_none_eq, BitVec.ofNat_toNat, BitVec.setWidth_eq, absTarget]

/-- Settles O14: the target passes the final PC check, and the copy committed is the state itself. -/
theorem jumpSetsPc : Obligations.JumpSetsPc := fun nnn s =>
  ⟨decodeTableWord_of_eq_encodeWord (tableWord_formNNN 0x1 nnn), decide (0 < s.st.toNat), exec_jp_eq nnn s⟩

/-! ### The condition of each skip -/

theorem exec_seImm_eq (x : Reg) (nn : Byte) (s : State) : exec (.seImm x nn) s = commitSkip s (s.v[x] == nn) := rfl

theorem exec_sneImm_eq (x : Reg) (nn : Byte) (s : State) : exec (.sneImm x nn) s = commitSkip s (s.v[x] != nn) := rfl

theorem exec_seReg_eq (x y : Reg) (s : State) : exec (.seReg x y) s = commitSkip s (s.v[x] == s.v[y]) := rfl

theorem exec_sneReg_eq (x y : Reg) (s : State) : exec (.sneReg x y) s = commitSkip s (s.v[x] != s.v[y]) := rfl

/-- A skip whose condition holds, away from the end of memory, as claims write it. -/
theorem commitSkip_eq_of_true {s : State} {c : Bool} (hc : c = true) (hp : s.pc.toNat ≤ 0xFFB) :
    commitSkip s c = .next { s with pc := s.pc + 4#16, reply := s.normalReply } := by
  rw [hc, commitSkip_taken hp, answer_none_eq]

/-- A skip whose condition fails, away from the end of memory, as claims write it. -/
theorem commitSkip_eq_of_false {s : State} {c : Bool} (hc : c = false) (hp : s.pc.toNat ≤ 0xFFD) :
    commitSkip s c = .next { s with pc := s.pc + 2#16, reply := s.normalReply } := by
  rw [hc, commitSkip_untaken hp, answer_none_eq]

/-- Settles O17: each skip is taken exactly where its comparison of Vx with nn holds. -/
theorem skipOnImmediate : Obligations.SkipOnImmediate := by
  intro x nn s
  rw [exec_seImm_eq, exec_sneImm_eq]
  exact ⟨decodeTableWord_of_eq_encodeWord (tableWord_formXNN 0x3 x nn),
    decodeTableWord_of_eq_encodeWord (tableWord_formXNN 0x4 x nn),
    fun h => commitSkip_eq_of_true (beq_iff_eq.2 h), fun h => commitSkip_eq_of_false (beq_eq_false_iff_ne.2 h),
    fun h => commitSkip_eq_of_true (bne_iff_ne.2 h), fun h => commitSkip_eq_of_false (bne_eq_false_iff_eq.2 h)⟩

/-- Settles O18: each skip is taken exactly where its comparison of Vx with Vy holds. -/
theorem skipOnRegister : Obligations.SkipOnRegister := by
  intro x y s
  rw [exec_seReg_eq, exec_sneReg_eq]
  exact ⟨decodeTableWord_of_eq_encodeWord (tableWord_formXYN 0x5 x y 0x0),
    decodeTableWord_of_eq_encodeWord (tableWord_formXYN 0x9 x y 0x0),
    fun h => commitSkip_eq_of_true (beq_iff_eq.2 h), fun h => commitSkip_eq_of_false (beq_eq_false_iff_ne.2 h),
    fun h => commitSkip_eq_of_true (bne_iff_ne.2 h), fun h => commitSkip_eq_of_false (bne_eq_false_iff_eq.2 h)⟩

end Sys2Proof
end

section
/-! PROOFS. Load, copy, addition and the two subtractions (spec/42_register_alu.md R161 to R163, R168, R169, R171). -/

namespace Sys2Proof

open Machine

/-- A table word given as op, n, x and y: the low nibble stands in the constant that the claims about `8xyn` write. -/
theorem tableWord_formXYN_low_first (op n : Nibble) (x y : Reg) :
    tableWord 16 (4096 * op.toNat + n.toNat + 256 * x.val + 16 * y.val) = formXYN op x y n := by
  rw [← tableWord_formXYN]
  congr 1
  omega

/-- An instruction that wrote registers only and goes on to the next one, as claims write it. -/
theorem commitNext_regs_eq {s : State} (v : Vector Byte 16) (hp : s.pc.toNat ≤ 0xFFD) :
    commitNext s { s with v := v } = .next { s with v := v, pc := s.pc + 2#16, reply := s.normalReply } :=
  commitNext_of_le hp

/-! ### The working copy of each instruction -/

theorem exec_ldImm_eq (x : Reg) (nn : Byte) (s : State) : exec (.ldImm x nn) s = commitNext s (s.setV x nn) := rfl

theorem exec_addImm_eq (x : Reg) (nn : Byte) (s : State) :
    exec (.addImm x nn) s = commitNext s (s.setV x (s.v[x] + nn)) := rfl

theorem exec_ldReg_eq (x y : Reg) (s : State) : exec (.ldReg x y) s = commitNext s (s.setV x s.v[y]) := rfl

theorem exec_addReg_eq (x y : Reg) (s : State) :
    exec (.addReg x y) s = commitNext s (s.setThenFlag x (s.v[x] + s.v[y]) (carryOut s.v[x] s.v[y])) := rfl

theorem exec_subReg_eq (x y : Reg) (s : State) :
    exec (.subReg x y) s = commitNext s (s.setThenFlag x (s.v[x] - s.v[y]) (strictlyGreater s.v[x] s.v[y])) := rfl

theorem exec_subnReg_eq (x y : Reg) (s : State) :
    exec (.subnReg x y) s = commitNext s (s.setThenFlag x (s.v[y] - s.v[x]) (strictlyGreater s.v[y] s.v[x])) := rfl

/-! ### Registers after Vx and then VF are written (R167) -/

/-- VF is written last, so it holds the flag even where x is F. -/
theorem setThenFlag_v_VF (s : State) (x : Reg) (b : Byte) (flag : Bool) :
    (s.setThenFlag x b flag).v[VF] = flagByte flag :=
  getV_setV_same (s.setV x b) VF (flagByte flag)

theorem setThenFlag_v_same (s : State) {x : Reg} (hx : x ≠ VF) (b : Byte) (flag : Bool) :
    (s.setThenFlag x b flag).v[x] = b :=
  (getV_setV_other (s.setV x b) hx (flagByte flag)).trans (getV_setV_same s x b)

theorem setThenFlag_v_other (s : State) {x k : Reg} (hkx : k ≠ x) (hkF : k ≠ VF) (b : Byte) (flag : Bool) :
    (s.setThenFlag x b flag).v[k] = s.v[k] :=
  (getV_setV_other (s.setV x b) hkF (flagByte flag)).trans (getV_setV_other s hkx b)

/-- An instruction that wrote Vx and then VF and goes on to the next one: the flag, the result as a number, and the frame. -/
theorem commitNext_setThenFlag {s : State} {x : Reg} {b f : Byte} {flag : Bool} {n : Nat} (hp : s.pc.toNat ≤ 0xFFD)
    (hf : flagByte flag = f) (hn : b.toNat = n) :
    ∃ t, commitNext s (s.setThenFlag x b flag) = .next t ∧
      t.v[VF] = f ∧ (x ≠ VF → t.v[x].toNat = n) ∧ (∀ k : Reg, k ≠ x → k ≠ VF → t.v[k] = s.v[k]) ∧
      t = { s with v := t.v, pc := s.pc + 2#16, reply := s.normalReply } :=
  ⟨_, commitNext_regs_eq (s.setThenFlag x b flag).v hp, (setThenFlag_v_VF s x b flag).trans hf,
    fun hx => (congrArg BitVec.toNat (setThenFlag_v_same s hx b flag)).trans hn,
    fun _ hkx hkF => setThenFlag_v_other s hkx hkF b flag, rfl⟩

/-- A difference of bytes as R169 and R171 write it, with 256 added before the subtraction. -/
theorem toNat_byte_sub (p q : Byte) : (p - q).toNat = (p.toNat + 256 - q.toNat) % 256 := by
  have hq : q.toNat < 256 := q.isLt
  rw [BitVec.toNat_sub]
  omega

/-- A sum of bytes as R162 writes it. -/
theorem byte_add_eq_ofNat (p q : Byte) : p + q = BitVec.ofNat 8 ((p.toNat + q.toNat) % 256) := by
  apply BitVec.eq_of_toNat_eq
  rw [BitVec.toNat_add, BitVec.toNat_ofNat, Nat.mod_mod]

/-- Settles O25: Vx takes the sum and VF, written after it, the carry. -/
theorem addSetsCarry : Obligations.AddSetsCarry := by
  intro x y s hp
  rw [exec_addReg_eq]
  exact ⟨decodeTableWord_of_eq_encodeWord (tableWord_formXYN_low_first 0x8 0x4 x y),
    commitNext_setThenFlag hp (flagByte_carryOut s.v[x] s.v[y]) (BitVec.toNat_add s.v[x] s.v[y])⟩

/-- Settles O26: both subtractions are one argument, with the operands exchanged. -/
theorem subtractSetsStrictFlag : Obligations.SubtractSetsStrictFlag := by
  intro x y s hp
  rw [exec_subReg_eq, exec_subnReg_eq]
  exact ⟨decodeTableWord_of_eq_encodeWord (tableWord_formXYN_low_first 0x8 0x5 x y),
    decodeTableWord_of_eq_encodeWord (tableWord_formXYN_low_first 0x8 0x7 x y),
    commitNext_setThenFlag hp (flagByte_strictlyGreater s.v[x] s.v[y]) (toNat_byte_sub s.v[x] s.v[y]),
    commitNext_setThenFlag hp (flagByte_strictlyGreater s.v[y] s.v[x]) (toNat_byte_sub s.v[y] s.v[x])⟩

/-- Settles O22: the working copy of each differs from the state in Vx only. -/
theorem loadAndAddImmediate : Obligations.LoadAndAddImmediate := by
  intro x nn s hp
  rw [exec_ldImm_eq, exec_addImm_eq, byte_add_eq_ofNat]
  exact ⟨decodeTableWord_of_eq_encodeWord (tableWord_formXNN 0x6 x nn),
    decodeTableWord_of_eq_encodeWord (tableWord_formXNN 0x7 x nn),
    commitNext_regs_eq _ hp, commitNext_regs_eq _ hp⟩

/-- Settles O23: the working copy differs from the state in Vx only, which holds Vy. -/
theorem registerCopy : Obligations.RegisterCopy := by
  intro x y s hp
  rw [exec_ldReg_eq]
  exact ⟨decodeTableWord_of_eq_encodeWord (tableWord_formXYN 0x8 x y 0x0), commitNext_regs_eq _ hp⟩

end Sys2Proof
end

section
/-! PROOFS. Loading I, and the byte stores and loads at I (spec/43_index_memory.md R191, R194 to R196). -/

namespace Sys2Proof

open Machine

/-- Settles O30: the working copy differs from the state in I only. -/
theorem loadIndexImmediate : Obligations.LoadIndexImmediate := fun nnn _ hp =>
  ⟨decodeTableWord_of_eq_encodeWord (tableWord_formNNN 0xA nnn), commitNext_of_le hp⟩

/-- A table word given as op, ff and x: the function code stands in the constant that the claims about `Fxff` write. -/
theorem tableWord_formXFF_low_first (op : Nibble) (x : Reg) (ff : Byte) :
    tableWord 16 (4096 * op.toNat + ff.toNat + 256 * x.val) = formXFF op x ff := by
  rw [formXFF, ← tableWord_formXNN]
  congr 1
  omega

/-! ### Storing bytes at I: what `Fx33` and `Fx55` share -/

/-- The instruction that stores the bytes `bs` from I up. -/
def storeBytes (s : State) (bs : List Byte) : Result :=
  match s.mem.writeBlock s.dataAddr bs with
  | none => .next (s.takeFault .memoryFault)
  | some m => commitNext s { s with mem := m }

theorem exec_ldB_eq (x : Reg) (s : State) : exec (.ldB x) s = storeBytes s (bcdDigits s.v[x]) := rfl

theorem exec_storeRegs_eq (x : Reg) (s : State) : exec (.storeRegs x) s = storeBytes s (s.regsUpTo x) := rfl

/-- Bytes that end at 4095 or below: they are read back from I up, and all else is as before. -/
theorem storeBytes_of_le {s : State} {bs : List Byte} (hm : s.mem.wf) (hp : s.pc.toNat ≤ 0xFFD)
    (hb : s.idx.toNat + bs.length ≤ 4096) :
    ∃ t, storeBytes s bs = .next t ∧
      (∀ k (hk : k < bs.length), t.mem.read (s.idx.toNat + k) = bs[k]) ∧
      (∀ a, a < s.idx.toNat ∨ s.idx.toNat + bs.length ≤ a → t.mem.read a = s.mem.read a) ∧
      t = { s with mem := t.mem, pc := s.pc + 2#16, reply := s.normalReply } := by
  have hw : s.mem.writeBlock s.dataAddr bs = some (s.mem.fill s.idx.toNat bs) := if_pos (.inr hb)
  refine ⟨{ s with mem := s.mem.fill s.idx.toNat bs, pc := s.pc + 2#16, reply := s.normalReply }, ?_,
    read_fill_same hm.1 bs s.idx.toNat, fun _ => read_fill_other s.mem bs s.idx.toNat, rfl⟩
  rw [storeBytes, hw]
  exact commitNext_of_le hp

/-- Bytes of which one would lie above 4095: none is stored (the spec's decision D4, log 9). -/
theorem storeBytes_of_gt {s : State} {bs : List Byte} (h0 : bs.length ≠ 0) (hb : 4096 < s.idx.toNat + bs.length) :
    storeBytes s bs = .next s.afterMemoryFault := by
  have hw : s.mem.writeBlock s.dataAddr bs = none := (writeBlock_eq_none _ _ _).2 ⟨h0, hb⟩
  rw [storeBytes, hw, takeFault_memoryFault_eq]

/-! ### `Fx33` -/

@[simp] theorem length_bcdDigits (b : Byte) : (bcdDigits b).length = 3 := rfl

/-- The digits of a byte as numbers: each is below 256, so none is cut to eight bits. -/
theorem toNat_bcdDigits (b : Byte) :
    (bcdDigits b)[0].toNat = b.toNat / 100 ∧ (bcdDigits b)[1].toNat = b.toNat / 10 % 10 ∧
      (bcdDigits b)[2].toNat = b.toNat % 10 := by
  have hb : b.toNat < 256 := b.isLt
  refine ⟨?_, ?_, ?_⟩ <;>
  · simp only [bcdDigits, List.getElem_cons_zero, List.getElem_cons_succ, BitVec.toNat_ofNat]
    omega

/-- Settles O32: the three bytes stored at I are the digits. -/
theorem bcdStoresDigits : Obligations.BcdStoresDigits := by
  intro x s hm hp
  rw [exec_ldB_eq]
  have hlen : (bcdDigits s.v[x]).length = 3 := length_bcdDigits s.v[x]
  refine ⟨decodeTableWord_of_eq_encodeWord (tableWord_formXFF_low_first 0xF x 0x33), fun hb => ?_,
    fun hb => storeBytes_of_gt (by omega) (by omega)⟩
  obtain ⟨t, ht, hstored, hother, hframe⟩ :=
    storeBytes_of_le (bs := bcdDigits s.v[x]) hm hp (by omega)
  obtain ⟨hhundreds, htens, hones⟩ := toNat_bcdDigits s.v[x]
  refine ⟨t, ht, ?_, ?_, ?_, fun a ha => hother a (by omega), hframe⟩
  · exact (congrArg BitVec.toNat (hstored 0 (by omega))).trans hhundreds
  · exact (congrArg BitVec.toNat (hstored 1 (by omega))).trans htens
  · exact (congrArg BitVec.toNat (hstored 2 (by omega))).trans hones

/-! ### `Fx55` -/

@[simp] theorem length_regsUpTo (s : State) (x : Reg) : (s.regsUpTo x).length = x.val + 1 := by
  simp [State.regsUpTo]

theorem getElem_regsUpTo (s : State) (x k : Reg) (h : k.val < (s.regsUpTo x).length) :
    (s.regsUpTo x)[k.val] = s.v[k] := by
  simp [State.regsUpTo]

/-- Settles O33: the bytes stored at I are V0..Vx. -/
theorem storeRegistersToMemory : Obligations.StoreRegistersToMemory := by
  intro x s hm hp
  rw [exec_storeRegs_eq]
  have hlen : (s.regsUpTo x).length = x.val + 1 := length_regsUpTo s x
  refine ⟨decodeTableWord_of_eq_encodeWord (tableWord_formXFF_low_first 0xF x 0x55), fun hb => ?_,
    fun hb => storeBytes_of_gt (by omega) (by omega)⟩
  obtain ⟨t, ht, hstored, hother, hframe⟩ :=
    storeBytes_of_le (bs := s.regsUpTo x) hm hp (by omega)
  refine ⟨t, ht, fun k hk => ?_, fun a ha => hother a (by omega), hframe⟩
  rw [hstored k.val (by omega), getElem_regsUpTo]

/-! ### `Fx65` -/

/-- A register whose number is below the count of bytes takes its byte. -/
theorem getElem_loadPrefix_of_lt (v : Vector Byte 16) {bs : List Byte} {k : Reg} (h : k.val < bs.length) :
    (loadPrefix v bs)[k] = bs[k.val] := by
  simp [loadPrefix, h]

/-- A register past the bytes keeps its value. -/
theorem getElem_loadPrefix_of_ge (v : Vector Byte 16) {bs : List Byte} {k : Reg} (h : bs.length ≤ k.val) :
    (loadPrefix v bs)[k] = v[k] := by
  simp [loadPrefix, h]

/-- A load whose bytes end at 4095 or below commits V0..Vx with the bytes from I up. -/
theorem exec_loadRegs_of_le {x : Reg} {s : State} (hp : s.pc.toNat ≤ 0xFFD) (hb : s.idx.toNat + x.val ≤ 4095) :
    exec (.loadRegs x) s = .next { s with
      v := loadPrefix s.v ((List.range (x.val + 1)).map fun k => s.mem.read (s.idx.toNat + k))
      pc := s.pc + 2#16, reply := s.normalReply } := by
  have hr : s.mem.readBlock s.dataAddr (x.val + 1) =
      some ((List.range (x.val + 1)).map fun k => s.mem.read (s.idx.toNat + k)) :=
    if_pos (.inr (Nat.succ_le_succ hb))
  rw [exec, execLoadRegs, hr]
  exact commitNext_regs_eq _ hp

/-- A load of which one byte would lie above 4095 loads none (the spec's decision D4, log 9). -/
theorem exec_loadRegs_of_gt {x : Reg} {s : State} (hb : 4095 < s.idx.toNat + x.val) :
    exec (.loadRegs x) s = .next s.afterMemoryFault := by
  have hr : s.mem.readBlock s.dataAddr (x.val + 1) = none :=
    (readBlock_eq_none _ _ _).2 ⟨Nat.succ_ne_zero x.val, Nat.succ_lt_succ hb⟩
  rw [exec, execLoadRegs, hr, takeFault_memoryFault_eq]

/-- Settles O34: registers up to x take the bytes read, and those past x are past the bytes. -/
theorem loadRegistersFromMemory : Obligations.LoadRegistersFromMemory := by
  intro x s hp
  refine ⟨decodeTableWord_of_eq_encodeWord (tableWord_formXFF_low_first 0xF x 0x65),
    fun hb => ⟨_, exec_loadRegs_of_le hp hb, fun k hk => ?_, fun k hk => ?_, rfl⟩, exec_loadRegs_of_gt⟩
  · rw [getElem_loadPrefix_of_lt _ (by simp; omega), List.getElem_map, List.getElem_range]
  · exact getElem_loadPrefix_of_ge s.v (by simp; omega)

end Sys2Proof
end

section
/-! PROOFS. The key wait, the timer instructions and what writes KEY (spec/45_keys_timers.md R230, R233, R234, R236 to R238). -/

namespace Sys2Proof

open Machine

/-! ### `Fx0A` -/

/-- `lowestKey` finds the least set bit (R234). -/
theorem lowestKey_eq_some {w : Word} {k : Reg} (hk : w.getLsbD k.val = true)
    (hlow : ∀ j : Reg, j.val < k.val → w.getLsbD j.val = false) : lowestKey w = some k := by
  have hlen : k.val < (List.finRange 16).length := by rw [List.length_finRange]; exact k.isLt
  refine List.find?_eq_some_iff_getElem.2 ⟨hk, k.val, hlen, List.getElem_finRange hlen, fun j hj => ?_⟩
  rw [List.getElem_finRange, hlow _ hj, Bool.not_false]

/-- With no key pressed the final PC is the instruction's own, so the state committed differs in the reply only (R233). -/
theorem exec_ldVxK_of_no_key {x : Reg} {s : State} (hk : s.key = 0) (hp : s.pc.toNat ≤ 0xFFF) :
    exec (.ldVxK x) s = .next { s with reply := s.normalReply } := by
  have hnone : lowestKey s.key = none := (lowestKey_eq_none s.key).2 hk
  have hback : s.npc - 2 = s.pc.toNat := Nat.add_sub_cancel s.pc.toNat 2
  rw [exec, execLdVxK, hnone, hback]
  calc commit s s s.pc.toNat false
    _ = .next ({ s with pc := BitVec.ofNat 16 s.pc.toNat }.answer .none false) := commit_of_le hp
    _ = .next { s with reply := s.normalReply } := by rw [answer_none_eq, BitVec.ofNat_toNat, BitVec.setWidth_eq]

/-- With a key pressed the working copy has the least one's number in Vx (R234). -/
theorem exec_ldVxK_of_lowestKey {x k : Reg} {s : State} (hk : lowestKey s.key = some k) :
    exec (.ldVxK x) s = commitNext s (s.setV x (BitVec.ofNat 8 k.val)) := by
  rw [exec, execLdVxK, hk]

/-- Settles O43: the wait commits the state at its own PC; the other case commits the least set bit's number. -/
theorem keyWaitTakesLowestKey : Obligations.KeyWaitTakesLowestKey := by
  intro x s
  refine ⟨decodeTableWord_of_eq_encodeWord (tableWord_formXFF_low_first 0xF x 0x0A),
    fun hk hp => ⟨decide (0 < s.st.toNat), exec_ldVxK_of_no_key hk hp⟩,
    fun k hk hlow hp => ⟨decide (0 < s.st.toNat), ?_⟩⟩
  rw [exec_ldVxK_of_lowestKey (lowestKey_eq_some hk hlow)]
  exact commitNext_regs_eq _ hp

/-! ### Who writes KEY -/

theorem takeFault_key (s : State) (f : StepFault) : (s.takeFault f).key = s.key := by
  obtain ⟨-, -, -, -, -, -, -, hkey, -⟩ := takeFault_frame s f
  exact hkey

/-- A commit answers the working copy's KEY, or after a fault the one the step began with. -/
theorem commit_key {s w t : State} {n : Nat} {d : Bool} (hw : w.key = s.key) (h : commit s w n d = .next t) :
    t.key = s.key := by
  obtain ⟨-, hc⟩ | ⟨-, hf⟩ := commit_cases s w n d
  · cases hc.symm.trans h
    exact hw
  · cases hf.symm.trans h
    exact takeFault_key s .memoryFault

/-- No instruction writes KEY: it takes a fault, or commits a working copy, which has the KEY of the state it began in. -/
theorem exec_key {i : Instr} {s t : State} (h : exec i s = .next t) : t.key = s.key := by
  obtain ⟨f, hf, -⟩ | ⟨w, n, d, hc, hw, -⟩ := exec_cases i s
  · cases hf.symm.trans h
    exact takeFault_key s f
  · exact commit_key hw.key (hc.symm.trans h)

theorem perform_tick_of_loaded {s : State} (hl : s.loaded = true) : perform .tick s = .next (performTick s) := if_pos hl

theorem perform_tick_of_not_loaded {s : State} (hl : s.loaded = false) : perform .tick s = .refused .notLoaded :=
  if_neg (Bool.eq_false_iff.1 hl)

/-- A `Tick` that has a transition leaves KEY; while LOADED = 0 it has none (R31). -/
theorem perform_tick_key {s t : State} (h : perform .tick s = .next t) : t.key = s.key := by
  cases hl : s.loaded
  case false => cases (perform_tick_of_not_loaded hl).symm.trans h
  case true =>
    cases (perform_tick_of_loaded hl).symm.trans h
    rfl

/-- A pending `SetKeys` of a loaded machine, halted or not (R230). -/
theorem step_pending_setKeys {s : State} {k : Word} {es : List Event} (hl : s.loaded = true)
    (hs : s.host = .setKeys k :: es) : step s = .next { s with key := k, host := es, reply := .nothing } := by
  rw [step, nextEvent_cons hs]
  exact if_pos hl

/-- Settles O47: by what the pending event does, and by what every instruction and every `Tick` keep. -/
theorem setKeysOverwritesLatch : Obligations.SetKeysOverwritesLatch :=
  ⟨fun _ _ _ hl hs => ⟨.nothing, step_pending_setKeys hl hs⟩, fun _ _ _ => exec_key, fun _ _ => perform_tick_key⟩

/-! ### `Fx07`, `Fx15`, `Fx18` -/

theorem exec_ldVxDT_eq (x : Reg) (s : State) : exec (.ldVxDT x) s = commitNext s (s.setV x s.dt) := rfl

theorem exec_ldDTVx_eq (x : Reg) (s : State) : exec (.ldDTVx x) s = commitNext s { s with dt := s.v[x] } := rfl

theorem exec_ldSTVx_eq (x : Reg) (s : State) : exec (.ldSTVx x) s = commitNext s { s with st := s.v[x] } := rfl

/-- Settles O44: the working copy of each differs from the state in the byte moved only, and the reply's `tone` is read off
that copy. -/
theorem timerInstructionsMoveOneByte : Obligations.TimerInstructionsMoveOneByte := by
  intro x s hp
  rw [exec_ldVxDT_eq, exec_ldDTVx_eq, exec_ldSTVx_eq]
  exact ⟨decodeTableWord_of_eq_encodeWord (tableWord_formXFF_low_first 0xF x 0x07),
    decodeTableWord_of_eq_encodeWord (tableWord_formXFF_low_first 0xF x 0x15),
    decodeTableWord_of_eq_encodeWord (tableWord_formXFF_low_first 0xF x 0x18),
    commitNext_regs_eq _ hp, commitNext_of_le hp, commitNext_of_le hp⟩

end Sys2Proof
end

section
/-! PROOFS. The load that fails, and the machine it leaves (spec/10_state.md R31, R259, D33). -/

namespace Sys2Proof

open Machine

theorem romWellFormed_eq_false_iff (rom : List Byte) :
    romWellFormed rom = false ↔ rom.length = 0 ∨ 3584 < rom.length := by
  rw [romWellFormed, Bool.and_eq_false_iff, bne_eq_false_iff_eq, decide_eq_false_iff_not, Nat.not_le]
  exact Iff.rfl

/-- A `Load` that fails clears LOADED and answers LoadError; the rest of the state stays (R259, log 5). -/
theorem performLoad_of_not_wellFormed {rom : List Byte} (font : Option Font) (strict : Bool) (s : State)
    (h : romWellFormed rom = false) :
    performLoad rom font strict s = { s with loaded := false, reply := .loadError } :=
  if_neg (Bool.eq_false_iff.1 h)

/-- A pending `Load`, in any state. -/
theorem step_pending_load {s : State} {rom : List Byte} {font : Option Font} {strict : Bool} {es : List Event}
    (hs : s.host = .load rom font strict :: es) :
    step s = .next (performLoad rom font strict { s with host := es }) := by
  rw [step, nextEvent_cons hs]
  rfl

/-! ### While LOADED = 0: no port answers, and only a `Load` has a transition (R31, log 5) -/

theorem snapshot_of_not_loaded {s : State} (hl : s.loaded = false) : s.snapshot = none := if_neg (Bool.eq_false_iff.1 hl)

theorem tonePort_of_not_loaded {s : State} (hl : s.loaded = false) : s.tonePort = none := if_neg (Bool.eq_false_iff.1 hl)

theorem diagnostics_of_not_loaded {s : State} (hl : s.loaded = false) : s.diagnostics = none :=
  if_neg (Bool.eq_false_iff.1 hl)

/-- While LOADED = 0 only a `Load` has a transition (R31). -/
theorem perform_of_not_loaded {s : State} {e : Event} (hl : s.loaded = false)
    (he : ∀ rom font strict, e ≠ .load rom font strict) : perform e s = .refused .notLoaded := by
  have hn : ¬s.loaded = true := Bool.eq_false_iff.1 hl
  cases e with
  | load rom font strict => exact absurd rfl (he rom font strict)
  | setKeys k => exact if_neg hn
  | step rnd => exact if_neg hn
  | tick => exact perform_tick_of_not_loaded hl

/-- Settles O49: the failed `Load` leaves LOADED = 0, and that alone silences the ports and refuses the events. -/
theorem badRomIsLoadError : Obligations.BadRomIsLoadError := by
  intro s rom font strict es hs hlen
  have hload : step s = .next { s with host := es, loaded := false, reply := .loadError } := by
    rw [step_pending_load hs, performLoad_of_not_wellFormed font strict _ ((romWellFormed_eq_false_iff rom).2 hlen)]
  exact ⟨_, hload, rfl, rfl, snapshot_of_not_loaded rfl, tonePort_of_not_loaded rfl, diagnostics_of_not_loaded rfl,
    fun _ => perform_of_not_loaded rfl⟩

end Sys2Proof
end

section
/-! PROOFS. The decoder against the encoder, the unknown words of R97 and the rows of R95 (spec/30_encoding.md). -/

namespace Sys2Proof

/-- Settles O2: the bytes of an instruction are those of its word, and dispatch finds it there. -/
theorem decodeInvertsEncode : Obligations.DecodeInvertsEncode := fun i rest => by
  rw [encode, decode_bytesOfWord, decodeWord_encodeWord]

/-- Settles O1: each sample is an instruction's word, or falls in the table of R97. -/
theorem sampleWordsDecode : Obligations.SampleWordsDecode := by
  unfold Obligations.SampleWordsDecode
  decide

/-! ### A word from its fields (R93) -/

theorem formNNN_ofWord (w : Word) : formNNN (Fields.ofWord w).op (Fields.ofWord w).nnn = w :=
  (BitVec.extractLsb'_append_extractLsb'_eq_extractLsb' (start₁ := 0) (len₁ := 12) rfl).trans
    BitVec.extractLsb'_eq_self

theorem formXNN_ofWord (w : Word) :
    formXNN (Fields.ofWord w).op (regOf (Fields.ofWord w).x) (Fields.ofWord w).nn = w := by
  have hxnn : (Fields.ofWord w).x ++ (Fields.ofWord w).nn = (Fields.ofWord w).nnn :=
    BitVec.extractLsb'_append_extractLsb'_eq_extractLsb' (start₁ := 0) (len₁ := 8) rfl
  rw [formXNN, nibbleOf_regOf, hxnn]
  exact formNNN_ofWord w

theorem formXYN_ofWord (w : Word) :
    formXYN (Fields.ofWord w).op (regOf (Fields.ofWord w).x) (regOf (Fields.ofWord w).y) (Fields.ofWord w).n = w := by
  rw [formXYN, nibbleOf_regOf (Fields.ofWord w).y, ← ofWord_nn_eq_append]
  exact formXNN_ofWord w

/-! ### What each dispatcher keeps of the fields it read -/

/-- Op 0 keeps the whole word. -/
theorem encodeWord_of_decodeOp0 {f : Fields} {i : Instr} (h : decodeOp0 f = .instr i) :
    encodeWord i = formNNN 0x0 f.nnn := by
  unfold decodeOp0 at h
  split at h <;> cases h
  all_goals
    rename_i hnnn
    rw [(BitVec.toNat_eq_nat.1 hnnn).2]
    rfl

/-- Op 8 keeps `x`, `y` and the `n` it selected on. -/
theorem encodeWord_of_decodeOp8 {f : Fields} {i : Instr} (h : decodeOp8 f = .instr i) :
    encodeWord i = formXYN 0x8 (regOf f.x) (regOf f.y) f.n := by
  unfold decodeOp8 at h
  split at h <;> cases h
  all_goals
    rename_i hn
    rw [(BitVec.toNat_eq_nat.1 hn).2]
    rfl

/-- Op E keeps `x` and the `nn` it selected on. -/
theorem encodeWord_of_decodeOpE {f : Fields} {i : Instr} (h : decodeOpE f = .instr i) :
    encodeWord i = formXNN 0xE (regOf f.x) f.nn := by
  unfold decodeOpE at h
  split at h <;> cases h
  all_goals
    rename_i hnn
    rw [(BitVec.toNat_eq_nat.1 hnn).2]
    rfl

/-- Op F keeps `x` and the `nn` it selected on. -/
theorem encodeWord_of_decodeOpF {f : Fields} {i : Instr} (h : decodeOpF f = .instr i) :
    encodeWord i = formXNN 0xF (regOf f.x) f.nn := by
  unfold decodeOpF at h
  split at h <;> cases h
  all_goals
    rename_i hnn
    rw [(BitVec.toNat_eq_nat.1 hnn).2]
    rfl

section
variable {w : Word} {op : Nibble} (hop : (Fields.ofWord w).op.toNat = op.toNat)
include hop

theorem formNNN_of_op : formNNN op (Fields.ofWord w).nnn = w :=
  BitVec.eq_of_toNat_eq hop ▸ formNNN_ofWord w

theorem formXNN_of_op : formXNN op (regOf (Fields.ofWord w).x) (Fields.ofWord w).nn = w :=
  BitVec.eq_of_toNat_eq hop ▸ formXNN_ofWord w

theorem formXYN_of_op :
    formXYN op (regOf (Fields.ofWord w).x) (regOf (Fields.ofWord w).y) (Fields.ofWord w).n = w :=
  BitVec.eq_of_toNat_eq hop ▸ formXYN_ofWord w

end

/-- Dispatch keeps every field of a word: the formats of R93 give it back from what each arm read. -/
theorem encodeWord_of_decodeWord {w : Word} {i : Instr} (h : decodeWord w = .instr i) : encodeWord i = w := by
  unfold decodeWord decodeFields at h
  split at h
  case h_1 hop => exact (encodeWord_of_decodeOp0 h).trans (formNNN_of_op hop)
  case h_2 hop | h_3 hop | h_11 hop | h_12 hop => cases h; exact formNNN_of_op hop
  case h_4 hop | h_5 hop | h_7 hop | h_8 hop | h_13 hop => cases h; exact formXNN_of_op hop
  case h_6 hop | h_10 hop =>
    split at h <;> cases h
    rename_i hn
    exact (congrArg (formXYN _ _ _) hn.symm).trans (formXYN_of_op hop)
  case h_9 hop => exact (encodeWord_of_decodeOp8 h).trans (formXYN_of_op hop)
  case h_14 hop => 
    cases h
    rw [encodeWord, nibbleOf_regOf]
    exact formXYN_of_op hop
  case h_15 hop => exact (encodeWord_of_decodeOpE h).trans (formXNN_of_op hop)
  case h_16 =>
    refine (encodeWord_of_decodeOpF h).trans (formXNN_of_op ?_)
    have hlt : (Fields.ofWord w).op.toNat < 16 := (Fields.ofWord w).op.isLt
    simp only [imp_false] at *
    show (Fields.ofWord w).op.toNat = 15
    omega

/-- Settles O3: the word is given back from the fields its instruction kept. -/
theorem encodeInvertsDecode : Obligations.EncodeInvertsDecode := fun _ _ => encodeWord_of_decodeWord

/-! ### The unknown words (R97) -/

theorem decodeOp0_unknown_iff (f : Fields) :
    (∃ why, decodeOp0 f = .unknown why) ↔ f.nnn.toNat ≠ 0x0E0 ∧ f.nnn.toNat ≠ 0x0EE := by
  unfold decodeOp0
  split <;> simp_all

theorem decodeOp8_unknown_iff (f : Fields) :
    (∃ why, decodeOp8 f = .unknown why) ↔ f.n.toNat ∈ [0x8, 0x9, 0xA, 0xB, 0xC, 0xD, 0xF] := by
  have hn : f.n.toNat < 16 := f.n.isLt
  unfold decodeOp8
  split <;> simp_all
  omega

theorem decodeOpE_unknown_iff (f : Fields) :
    (∃ why, decodeOpE f = .unknown why) ↔ f.nn.toNat ∉ [0x9E, 0xA1] := by
  unfold decodeOpE
  split <;> simp_all

theorem decodeOpF_unknown_iff (f : Fields) :
    (∃ why, decodeOpF f = .unknown why) ↔
      f.nn.toNat ∉ [0x07, 0x0A, 0x15, 0x18, 0x1E, 0x29, 0x33, 0x55, 0x65] := by
  unfold decodeOpF
  split <;> simp_all

/-- R97's table, on the fields of a word. -/
theorem decodeFields_unknown_iff (f : Fields) :
    (∃ why, decodeFields f = .unknown why) ↔
      (f.op.toNat = 0x0 ∧ f.nnn.toNat ≠ 0x0E0 ∧ f.nnn.toNat ≠ 0x0EE) ∨
      (f.op.toNat = 0x5 ∧ f.n.toNat ≠ 0) ∨
      (f.op.toNat = 0x8 ∧ f.n.toNat ∈ [0x8, 0x9, 0xA, 0xB, 0xC, 0xD, 0xF]) ∨
      (f.op.toNat = 0x9 ∧ f.n.toNat ≠ 0) ∨
      (f.op.toNat = 0xE ∧ f.nn.toNat ∉ [0x9E, 0xA1]) ∨
      (f.op.toNat = 0xF ∧ f.nn.toNat ∉ [0x07, 0x0A, 0x15, 0x18, 0x1E, 0x29, 0x33, 0x55, 0x65]) := by
  rw [← decodeOp0_unknown_iff, ← decodeOp8_unknown_iff, ← decodeOpE_unknown_iff, ← decodeOpF_unknown_iff]
  unfold decodeFields
  split
  case h_6 hop | h_10 hop => 
    have hn : f.n = 0#4 ↔ f.n.toNat = 0 := by rw [← BitVec.toNat_inj]; rfl
    simp only [hn, hop]
    split <;> simp_all
  case h_16 => 
    have hlt : f.op.toNat < 16 := f.op.isLt
    simp only [imp_false] at *
    have hop : f.op.toNat = 15 := by omega
    simp [hop]
  all_goals simp_all

/-- Settles O5: R97's table on the fields, read as parts of the word's number. -/
theorem unknownWordsAreTheTables : Obligations.UnknownWordsAreTheTables := by
  intro w
  have hlow : w.toNat / 4096 = 0 → w.toNat % 4096 = w.toNat := by omega
  rw [decodeWord, decodeFields_unknown_iff]
  simp only [toNat_ofWord_op, toNat_ofWord_nnn, toNat_ofWord_nn, toNat_ofWord_n]
  refine or_congr (and_congr_right fun h0 => ?_) Iff.rfl
  rw [hlow h0]

/-! ### The rows of R95 -/

/-- Two rows that select one word agree wherever both have a mask bit. -/
theorem pattern_and_mask_of_selects {r r' : Row} {w : Word} (h : r.selects w = true) (h' : r'.selects w = true) :
    r.pattern &&& r'.mask = r'.pattern &&& r.mask := by
  rw [← beq_iff_eq.1 h, ← beq_iff_eq.1 h', BitVec.and_assoc, BitVec.and_assoc, BitVec.and_comm r.mask]

/-- Any two different rows of the map differ in a bit that both masks have. -/
theorem opcodeRows_disjoint : ∀ r ∈ opcodeRows, ∀ r' ∈ opcodeRows,
    r.pattern &&& r'.mask = r'.pattern &&& r.mask → r = r' := by
  decide

/-- The four kinds of rows: the whole word selects, `op` alone, `op` and `n`, or `op` and `nn`. -/
theorem opcodeRows_kinds : ∀ r ∈ opcodeRows,
    (r.mask = 0xFFFF#16 ∧ r.pattern.toNat ∈ [0x00E0, 0x00EE]) ∨
    (r.mask = 0xF000#16 ∧ r.pattern.toNat / 4096 ∈ [0x1, 0x2, 0x3, 0x4, 0x6, 0x7, 0xA, 0xB, 0xC, 0xD]) ∨
    (r.mask = 0xF00F#16 ∧ (r.pattern.toNat / 4096 ∈ [0x5, 0x9] ∧ r.pattern.toNat % 16 = 0 ∨
      r.pattern.toNat / 4096 = 0x8 ∧ r.pattern.toNat % 16 ∈ [0x0, 0x1, 0x2, 0x3, 0x4, 0x5, 0x6, 0x7, 0xE])) ∨
    (r.mask = 0xF0FF#16 ∧ (r.pattern.toNat / 4096 = 0xE ∧ r.pattern.toNat % 256 ∈ [0x9E, 0xA1] ∨
      r.pattern.toNat / 4096 = 0xF ∧
        r.pattern.toNat % 256 ∈ [0x07, 0x0A, 0x15, 0x18, 0x1E, 0x29, 0x33, 0x55, 0x65])) := by
  decide

/-- A mask with its top nibble set keeps `op`. -/
theorem toNat_and_div_of_mask (w m : Word) (h : m.toNat / 2 ^ 12 = 2 ^ 4 - 1) :
    (w &&& m).toNat / 4096 = w.toNat / 4096 := by
  have hw : w.toNat / 2 ^ 12 < 2 ^ 4 := by have := w.isLt; omega
  calc (w &&& m).toNat / 2 ^ 12
    _ = w.toNat / 2 ^ 12 % 2 ^ 4 := by
      rw [BitVec.toNat_and, Nat.and_div_two_pow, h, Nat.and_two_pow_sub_one_eq_mod]
    _ = w.toNat / 2 ^ 12 := Nat.mod_eq_of_lt hw

/-- A mask with its low `k` bits set keeps them. -/
theorem toNat_and_mod_of_mask (w m : Word) (k : Nat) (h : m.toNat % 2 ^ k = 2 ^ k - 1) :
    (w &&& m).toNat % 2 ^ k = w.toNat % 2 ^ k := by
  rw [BitVec.toNat_and, Nat.and_mod_two_pow, h, Nat.and_two_pow_sub_one_eq_mod, Nat.mod_mod]

/-- A word that a row selects is not in R97's table: kind by kind, the row's pattern has the word's selecting fields. -/
theorem not_unknown_of_selects {r : Row} {w : Word} (hr : r ∈ opcodeRows) (h : r.selects w = true) :
    ¬∃ why, decodeWord w = .unknown why := by
  have hpat : w &&& r.mask = r.pattern := beq_iff_eq.1 h
  rw [unknownWordsAreTheTables w]
  obtain ⟨hm, hk⟩ | ⟨hm, hk⟩ | ⟨hm, hk⟩ | ⟨hm, hk⟩ := opcodeRows_kinds r hr <;>
    rw [← hpat, hm] at hk
  · have hw : w &&& 0xFFFF#16 = w := BitVec.and_allOnes
    rw [hw] at hk
    simp only [List.mem_cons, List.not_mem_nil, or_false] at hk ⊢
    omega
  · rw [toNat_and_div_of_mask w _ rfl] at hk
    simp only [List.mem_cons, List.not_mem_nil, or_false] at hk ⊢
    omega
  · have hn : (w &&& 0xF00F#16).toNat % 16 = w.toNat % 16 := toNat_and_mod_of_mask w _ 4 rfl
    rw [toNat_and_div_of_mask w _ rfl, hn] at hk
    simp only [List.mem_cons, List.not_mem_nil, or_false] at hk ⊢
    omega
  · have hnn : (w &&& 0xF0FF#16).toNat % 256 = w.toNat % 256 := toNat_and_mod_of_mask w _ 8 rfl
    rw [toNat_and_div_of_mask w _ rfl, hnn] at hk
    simp only [List.mem_cons, List.not_mem_nil, or_false] at hk ⊢
    omega

/-- Each instruction's word lies in the instruction's row. -/
theorem rowMatch : ∀ i : Instr, Laws.RowMatch.Statement i
  | .cls => Laws.RowMatch.cls
  | .ret => Laws.RowMatch.ret
  | .jp nnn => Laws.RowMatch.jp nnn
  | .call nnn => Laws.RowMatch.call nnn
  | .seImm x nn => Laws.RowMatch.seImm x nn
  | .sneImm x nn => Laws.RowMatch.sneImm x nn
  | .seReg x y => Laws.RowMatch.seReg x y
  | .sneReg x y => Laws.RowMatch.sneReg x y
  | .ldImm x nn => Laws.RowMatch.ldImm x nn
  | .addImm x nn => Laws.RowMatch.addImm x nn
  | .ldReg x y => Laws.RowMatch.ldReg x y
  | .orReg x y => Laws.RowMatch.orReg x y
  | .andReg x y => Laws.RowMatch.andReg x y
  | .xorReg x y => Laws.RowMatch.xorReg x y
  | .addReg x y => Laws.RowMatch.addReg x y
  | .subReg x y => Laws.RowMatch.subReg x y
  | .shrReg x y => Laws.RowMatch.shrReg x y
  | .subnReg x y => Laws.RowMatch.subnReg x y
  | .shlReg x y => Laws.RowMatch.shlReg x y
  | .ldI nnn => Laws.RowMatch.ldI nnn
  | .jpV0 nnn => Laws.RowMatch.jpV0 nnn
  | .rnd x nn => Laws.RowMatch.rnd x nn
  | .drw x y n => Laws.RowMatch.drw x y n
  | .skp x => Laws.RowMatch.skp x
  | .sknp x => Laws.RowMatch.sknp x
  | .ldVxDT x => Laws.RowMatch.ldVxDT x
  | .ldDTVx x => Laws.RowMatch.ldDTVx x
  | .ldSTVx x => Laws.RowMatch.ldSTVx x
  | .addI x => Laws.RowMatch.addI x
  | .ldVxK x => Laws.RowMatch.ldVxK x
  | .ldF x => Laws.RowMatch.ldF x
  | .ldB x => Laws.RowMatch.ldB x
  | .storeRegs x => Laws.RowMatch.storeRegs x
  | .loadRegs x => Laws.RowMatch.loadRegs x

/-- A decoded word is its instruction's word, so the instruction's row selects it. -/
theorem rowOf_selects_of_decodeWord {w : Word} {i : Instr} (h : decodeWord w = .instr i) :
    rowOf i ∈ opcodeRows ∧ (rowOf i).selects w = true := by
  obtain ⟨hsel, hmem⟩ := rowMatch i
  exact ⟨hmem, encodeWord_of_decodeWord h ▸ hsel⟩

/-- Settles O6: rows differ under their common mask, a decoded word lies in its row, and a selected word is in no line of
R97's table. -/
theorem rowsAgreeWithDispatch : Obligations.RowsAgreeWithDispatch := by
  intro w
  refine ⟨fun r hr r' hr' h h' => opcodeRows_disjoint r hr r' hr' (pattern_and_mask_of_selects h h'),
    fun i => rowOf_selects_of_decodeWord, fun hunk r hr => ?_, fun hnone => ?_⟩
  · exact Bool.eq_false_iff.2 fun h => not_unknown_of_selects hr h hunk
  · cases hd : decodeWord w with
    | unknown why => exact ⟨why, rfl⟩
    | instr i =>
      obtain ⟨hmem, hsel⟩ := rowOf_selects_of_decodeWord hd
      exact absurd hsel (Bool.eq_false_iff.1 (hnone _ hmem))

end Sys2Proof
end

section
/-! PROOFS. All that an instruction and a `Step` event can answer, said once in the terms of claims, and what follows for
faults (spec/40_step_and_dispatch.md R120 to R128, spec/60_exceptions.md R250 to R258). -/

namespace Sys2Proof

open Machine

/-! ### Taking a fault -/

/-- Every fault taken is a MemoryFault, a rejected instruction or a strict halt. -/
theorem takeFault_forms (s : State) (f : StepFault) :
    s.takeFault f = s.afterMemoryFault ∨
    (f ≠ .memoryFault ∧ s.pc.toNat ≤ 0xFFD ∧
      ((s.strict = false ∧ s.takeFault f = s.afterReject f) ∨
        (s.strict = true ∧ s.takeFault f = s.afterStrictHalt f))) := by
  by_cases hf : f = .memoryFault
  · exact .inl (hf ▸ takeFault_memoryFault_eq s)
  · obtain ⟨-, h⟩ | ⟨hp, hs, h⟩ | ⟨hp, hs, h⟩ := takeFault_eq s hf
    · exact .inl h
    · exact .inr ⟨hf, hp, .inr ⟨hs, h⟩⟩
    · exact .inr ⟨hf, hp, .inl ⟨hs, h⟩⟩

section
variable {s : State} {f : StepFault}

/-- At the end of memory every fault is a MemoryFault (R257; the spec's decision D22, log 9). -/
theorem takeFault_at_end (hp : 0xFFD < s.pc.toNat) : s.takeFault f = s.afterMemoryFault := by
  obtain h | ⟨-, hp', -⟩ := takeFault_forms s f
  · exact h
  · omega

variable (hf : f ≠ .memoryFault) (hp : s.pc.toNat ≤ 0xFFD)
include hf hp

theorem takeFault_lenient (hs : s.strict = false) : s.takeFault f = s.afterReject f := by
  obtain ⟨hp', -⟩ | ⟨-, hs', -⟩ | ⟨-, -, h⟩ := takeFault_eq s hf
  · omega
  · rw [hs] at hs'; cases hs'
  · exact h

theorem takeFault_strict (hs : s.strict = true) : s.takeFault f = s.afterStrictHalt f := by
  obtain ⟨hp', -⟩ | ⟨-, -, h⟩ | ⟨-, hs', -⟩ := takeFault_eq s hf
  · omega
  · exact h
  · rw [hs] at hs'; cases hs'

end

/-- A fault that reports a MemoryFault left the state as it was but for the record (R253). -/
theorem takeFault_of_reply {s : State} {f : StepFault} {d b : Bool}
    (h : (s.takeFault f).reply = .stepped ⟨.fault .memoryFault, d, b⟩) : s.takeFault f = s.afterMemoryFault := by
  obtain e | ⟨hf, -, ⟨-, e⟩ | ⟨-, e⟩⟩ := takeFault_forms s f
  · exact e
  all_goals
    rw [e] at h
    cases h
    exact absurd rfl hf

/-- A fault taken reports a fault, no display change, and the tone (R128). -/
theorem takeFault_reply (s : State) (f : StepFault) :
    ∃ g, (s.takeFault f).reply = .stepped ⟨.fault g, false, decide (0 < (s.takeFault f).st.toNat)⟩ := by
  obtain e | ⟨-, -, ⟨-, e⟩ | ⟨-, e⟩⟩ := takeFault_forms s f <;> rw [e] <;> exact ⟨_, rfl⟩

/-! ### What an instruction answers -/

/-- What an instruction can answer: a fault taken, with the instruction that raises each, or a working copy committed at a
PC in 0..4095. -/
inductive Answers (i : Instr) (s : State) : State → Prop
  | fault (f : StepFault)
      (hf : f = .memoryFault ∨ (f = .stackOverflow ∧ s.sp.val = 16 ∧ ∃ nnn, i = .call nnn) ∨
        (f = .stackUnderflow ∧ s.sp.val = 0 ∧ i = .ret)) :
      Answers i s (s.takeFault f)
  | commit (w : State) (n : Nat) (d : Bool) (hn : n ≤ 0xFFF) (hw : WorkingCopy s w)
      (hd : d = true ↔ i = .cls ∨ ∃ x y n, i = .drw x y n) :
      Answers i s ({ w with pc := BitVec.ofNat 16 n }.answer .none d)

/-- Every instruction answers a next state, by one of the two. -/
theorem exec_answers (i : Instr) (s : State) : ∃ t, exec i s = .next t ∧ Answers i s t := by
  obtain ⟨f, h, hf⟩ | ⟨w, n, d, h, hw, hd⟩ := exec_cases i s
  · exact ⟨_, h, .fault f hf⟩
  · obtain ⟨hn, hc⟩ | ⟨-, hc⟩ := commit_cases s w n d
    · exact ⟨_, h.trans hc, .commit w n d hn hw hd⟩
    · exact ⟨_, h.trans hc, .fault .memoryFault (.inl rfl)⟩

theorem answers_of_exec {i : Instr} {s t : State} (h : exec i s = .next t) : Answers i s t := by
  obtain ⟨t', ht', ha⟩ := exec_answers i s
  cases ht'.symm.trans h
  exact ha

/-- A PC that the final check let pass is the number checked. -/
theorem toNat_ofNat_of_le {n : Nat} (hn : n ≤ 0xFFF) : (BitVec.ofNat 16 n).toNat = n :=
  (BitVec.toNat_ofNat n 16).trans (Nat.mod_eq_of_lt (by omega))

/-- Settles O11: a working copy writes none of the record and none of the model's inputs, and a fault taken is one of the
three fault cases. -/
theorem instructionCommitsOneOfFourCases : Obligations.InstructionCommitsOneOfFourCases := by
  intro i s
  obtain ⟨t, ht, ha⟩ := exec_answers i s
  refine ⟨t, ht, ?_⟩
  cases ha with
  | commit w n d hn hw hd =>
    exact ⟨hw.key, hw.loaded, hw.strict, hw.rnd, hw.draws, hw.host,
      .inl ⟨d, rfl, (toNat_ofNat_of_le hn).trans_le hn, hw.fstat, hw.halted, hw.unkCnt, hw.sovfCnt, hw.sunfCnt⟩⟩
  | fault f hf =>
    obtain ⟨-, -, -, -, -, -, -, hkey, -, hloaded, hstrict, hrnd, hdraws, hhost⟩ := takeFault_frame s f
    refine ⟨hkey, hloaded, hstrict, hrnd, hdraws, hhost, .inr ?_⟩
    obtain e | ⟨hne, hp, e⟩ := takeFault_forms s f
    · exact .inl e
    · exact .inr ⟨hp, f, hf.resolve_left hne, e⟩

/-! ### What a `Step` answers -/

/-- What the `Step` of a running machine can answer: the fault of the fetch or of an unknown word, or what the fetched
instruction answers. -/
inductive StepAnswers (s : State) : State → Prop
  | fault (f : StepFault) : StepAnswers s (s.takeFault f)
  | instr {i : Instr} {t : State} (hp : s.pc.toNat ≤ 0xFFE)
      (hd : decodeWord (wordOfBytes (s.mem.read s.pc.toNat) (s.mem.read (s.pc.toNat + 1))) = .instr i)
      (ha : Answers i s t) : StepAnswers s t

theorem runInstruction_answers (s : State) : ∃ t, runInstruction s = .next t ∧ StepAnswers s t := by
  obtain hp | hp := Nat.lt_or_ge 0xFFE s.pc.toNat
  · exact ⟨_, runInstruction_noFetch hp, .fault _⟩
  · cases hd : decodeWord (wordOfBytes (s.mem.read s.pc.toNat) (s.mem.read (s.pc.toNat + 1))) with
    | unknown why => exact ⟨_, runInstruction_unknown hp hd, .fault _⟩
    | instr i =>
      obtain ⟨t, ht, ha⟩ := exec_answers i s
      exact ⟨t, (runInstruction_instr hp hd).trans ht, .instr hp hd ha⟩

theorem perform_step_of_loaded {s : State} (rnd : Byte) (hl : s.loaded = true) :
    perform (.step rnd) s = performStep rnd s := if_pos hl

/-- The `Step` of a halted machine (R258). -/
theorem perform_step_of_halted {s : State} (rnd : Byte) (hl : s.loaded = true) (hh : s.halted = true) :
    perform (.step rnd) s = .next (s.answer .halted false) :=
  (perform_step_of_loaded rnd hl).trans (if_pos hh)

/-- The `Step` of a running machine (R120). -/
theorem perform_step_of_running {s : State} (rnd : Byte) (hl : s.loaded = true) (hh : s.halted = false) :
    perform (.step rnd) s = runInstruction { s with rnd := rnd } :=
  (perform_step_of_loaded rnd hl).trans (performStep_running rnd hh)

/-- All a `Step` of a loaded machine can do. -/
theorem perform_step_answers {s : State} (rnd : Byte) (hl : s.loaded = true) :
    ∃ t, perform (.step rnd) s = .next t ∧
      ((s.halted = true ∧ t = s.answer .halted false) ∨ (s.halted = false ∧ StepAnswers { s with rnd := rnd } t)) := by
  obtain hh | hh := Bool.eq_false_or_eq_true s.halted
  · exact ⟨_, perform_step_of_halted rnd hl hh, .inl ⟨hh, rfl⟩⟩
  · obtain ⟨t, ht, ha⟩ := runInstruction_answers { s with rnd := rnd }
    exact ⟨t, (perform_step_of_running rnd hl hh).trans ht, .inr ⟨hh, ha⟩⟩

/-- An event that has a transition and is no `Load` finds LOADED = 1 (R31). -/
theorem loaded_of_perform {e : Event} {s t : State} (he : ∀ rom font strict, e ≠ .load rom font strict)
    (h : perform e s = .next t) : s.loaded = true := by
  by_contra hl
  cases (perform_of_not_loaded (Bool.eq_false_iff.2 hl) he).symm.trans h

/-- `perform_step_answers` for a `Step` that has a transition. -/
theorem of_perform_step {rnd : Byte} {s t : State} (h : perform (.step rnd) s = .next t) :
    (s.halted = true ∧ t = s.answer .halted false) ∨ (s.halted = false ∧ StepAnswers { s with rnd := rnd } t) := by
  obtain ⟨t', ht', ha⟩ := perform_step_answers rnd (loaded_of_perform (by simp) h)
  cases ht'.symm.trans h
  exact ha

/-! ### The MemoryFault commits nothing (R253) -/

theorem Answers.eq_afterMemoryFault {i : Instr} {s t : State} {d b : Bool} (h : Answers i s t)
    (hr : t.reply = .stepped ⟨.fault .memoryFault, d, b⟩) : t = s.afterMemoryFault := by
  cases h with
  | fault f hf => exact takeFault_of_reply hr
  | commit w n d hn hw hd => cases hr

/-- Settles O12: a commit reports code 0 and a halted machine code 5, so the report is a fault's. -/
theorem memoryFaultIsPrecise : Obligations.MemoryFaultIsPrecise := by
  refine ⟨fun i s t d b h hr => (answers_of_exec h).eq_afterMemoryFault hr, fun rnd s t d b h hr => ?_⟩
  obtain ⟨-, rfl⟩ | ⟨-, hs⟩ := of_perform_step h
  · cases hr
  · cases hs with
    | fault f => exact takeFault_of_reply hr
    | instr hp hd ha => exact ha.eq_afterMemoryFault hr

/-! ### Every result reports `tone` and `disp_changed` (R128, R214) -/

theorem Answers.reply {i : Instr} {s t : State} (h : Answers i s t) :
    ∃ c d, t.reply = .stepped ⟨c, d, decide (0 < t.st.toNat)⟩ ∧
      (d = true ↔ (i = .cls ∨ ∃ x y n, i = .drw x y n) ∧ c = .none) := by
  cases h with
  | fault f hf =>
    obtain ⟨g, hg⟩ := takeFault_reply s f
    exact ⟨_, _, hg, by simp⟩
  | commit w n d hn hw hd => exact ⟨.none, d, rfl, by simpa using hd⟩

/-- Settles O41: the fetched instruction is the one the word decodes to, and no other answer has code 0. -/
theorem stepResultReportsToneAndDisplay : Obligations.StepResultReportsToneAndDisplay := by
  refine ⟨fun i s => ?_, fun rnd s hl => ?_⟩
  · obtain ⟨t, ht, ha⟩ := exec_answers i s
    obtain ⟨c, d, hr, hd⟩ := ha.reply
    exact ⟨t, c, d, ht, hr, hd⟩
  · obtain ⟨t, ht, ⟨-, rfl⟩ | ⟨-, ha⟩⟩ := perform_step_answers rnd hl
    · exact ⟨_, .halted, false, ht, rfl, by simp⟩
    · refine ⟨t, ?_⟩
      cases ha with
      | fault f =>
        obtain ⟨g, hg⟩ := takeFault_reply { s with rnd := rnd } f
        exact ⟨_, _, ht, hg, by simp⟩
      | @instr i _ hp hdec ha =>
        obtain ⟨c, d, hr, hd⟩ := ha.reply
        refine ⟨c, d, ht, hr, ?_⟩
        have hdec' : decodeWord (wordOfBytes (s.mem.read s.pc.toNat) (s.mem.read (s.pc.toNat + 1))) = .instr i := hdec
        simpa [hdec', and_comm] using hd

end Sys2Proof
end

section
/-! PROOFS. The events of the host one by one: `Step`, `Tick`, and the machine that is not loaded or halted
(spec/00_scope.md R7, spec/40_step_and_dispatch.md R120 to R127, spec/45_keys_timers.md R240). -/

namespace Sys2Proof

open Machine

/-- Settles O7: the event is taken off the list, and the fetched bytes are dispatched to the instruction. -/
theorem stepRunsDecodedInstruction : Obligations.StepRunsDecodedInstruction := fun _ _ hl hh hp hd =>
  ⟨fun _ _ hs => (step_pending_step hl hh hs).trans (runInstruction_instr hp hd),
    fun hs => (step_no_event hl hh hs).trans (runInstruction_instr hp hd)⟩

/-- Settles O9: the unknown word takes its fault, in the form that PC and STRICT select. -/
theorem unknownWordIsRejected : Obligations.UnknownWordIsRejected := by
  intro s why rnd es hl hh hp hs hd
  have hstep : step s = .next (({ s with rnd := rnd, host := es } : State).takeFault .unknownOpcode) :=
    (step_pending_step hl hh hs).trans (runInstruction_unknown hp hd)
  rw [hstep]
  exact ⟨fun hp' hst => congrArg _ (takeFault_lenient (by decide) hp' hst),
    fun hp' hst => congrArg _ (takeFault_strict (by decide) hp' hst),
    fun hp' => congrArg _ (takeFault_at_end (Nat.lt_of_lt_of_eq (by decide) hp'.symm))⟩

/-- Settles O10: the empty list stands for a `Step`, which is refused as every event but a `Load` is. -/
theorem notLoadedRefusesAllButLoad : Obligations.NotLoadedRefusesAllButLoad := by
  intro s hl
  refine ⟨fun e es hs he => ?_, fun hs => ?_, fun rom font strict es hs => ⟨_, step_pending_load hs⟩,
    snapshot_of_not_loaded hl, tonePort_of_not_loaded hl, diagnostics_of_not_loaded hl⟩
  · rw [step, nextEvent_cons hs]
    exact perform_of_not_loaded hl he
  · rw [step, nextEvent_nil hs]
    exact perform_of_not_loaded hl (by simp)

theorem perform_setKeys_of_loaded {s : State} (k : Word) (hl : s.loaded = true) :
    perform (.setKeys k) s = .next (performSetKeys k s) := if_pos hl

/-- Settles O55: a halted machine's `Step` only answers, and the two other events write their own fields. -/
theorem haltedMachineAnswersHalted : Obligations.HaltedMachineAnswersHalted := by
  intro e s hl hh he
  cases e with
  | load rom font strict => exact absurd rfl (he rom font strict)
  | setKeys k => exact ⟨_, perform_setKeys_of_loaded k hl, hh, rfl, by simp⟩
  | tick => exact ⟨_, perform_tick_of_loaded hl, hh, rfl, by simp⟩
  | step rnd => exact ⟨_, perform_step_of_halted rnd hl hh, hh, rfl, fun _ _ => ⟨rfl, rfl⟩⟩

/-! ### `Tick` -/

theorem toNat_countDown (t : Byte) : (countDown t).toNat = t.toNat - 1 := by
  unfold countDown
  split
  · bv_omega
  · omega

theorem step_pending_tick {s : State} {es : List Event} (hl : s.loaded = true) (hs : s.host = .tick :: es) :
    step s = .next (performTick { s with host := es }) := by
  rw [step, nextEvent_cons hs]
  exact perform_tick_of_loaded hl

/-- Settles O45: each timer counts down by one. -/
theorem tickCountsBothTimersDown : Obligations.TickCountsBothTimersDown := fun s _ hl hs =>
  ⟨_, step_pending_tick hl hs, toNat_countDown s.dt, toNat_countDown s.st, rfl⟩

theorem performAll_cons_of_next {e : Event} {es : List Event} {s t : State} (h : perform e s = .next t) :
    performAll (e :: es) s = performAll es t := by
  rw [performAll, h]

/-- Settles O46, by induction on the number of ticks. -/
theorem ticksDecayToZero : Obligations.TicksDecayToZero := by
  intro n
  induction n with
  | zero => exact fun s _ => ⟨s, rfl, rfl, rfl, rfl⟩
  | succ n ih =>
    intro s hl
    obtain ⟨t, ht, hdt, hst, hframe⟩ := ih (performTick s) hl
    have hdt' : t.dt.toNat = (countDown s.dt).toNat - n := hdt
    have hst' : t.st.toNat = (countDown s.st).toNat - n := hst
    rw [toNat_countDown] at hdt' hst'
    refine ⟨t, ?_, by omega, by omega, hframe⟩
    rw [List.replicate_succ, performAll_cons_of_next (perform_tick_of_loaded hl), ht]

/-! ### The jump to itself (R301) -/

/-- The word of a self-jump is that of a jump to PC: below 0x1000, PC is its low 12 bits. -/
theorem selfJump_word {pc : Word} (hp : pc.toNat ≤ 0xFFE) : 0x1000#16 ||| pc = encodeWord (.jp (pc.setWidth 12)) := by
  have hlt : pc.toNat < 2 ^ 12 := by omega
  have hpc : pc = 0x0#4 ++ pc.setWidth 12 := by
    apply BitVec.eq_of_toNat_eq
    rw [BitVec.toNat_append, BitVec.toNat_setWidth, Nat.mod_eq_of_lt hlt]
    simp
  conv_lhs => rw [hpc, show 0x1000#16 = 0x1#4 ++ 0x0#12 from rfl, BitVec.or_append]
  simp [encodeWord, formNNN]

/-- Settles O56: the word decodes to the jump whose target is PC. -/
theorem selfJumpIsFixedPoint : Obligations.SelfJumpIsFixedPoint := by
  intro s rnd hl hh ⟨hp, hw⟩
  have hd : decodeWord (wordOfBytes (s.mem.read s.pc.toNat) (s.mem.read (s.pc.toNat + 1))) =
      .instr (.jp (s.pc.setWidth 12)) := by
    rw [hw, selfJump_word hp, decodeWord_encodeWord]
  have hpc : (s.pc.setWidth 12).setWidth 16 = s.pc := by bv_omega
  calc perform (.step rnd) s
    _ = exec (.jp (s.pc.setWidth 12)) { s with rnd := rnd } :=
      (perform_step_of_running rnd hl hh).trans (runInstruction_instr hp hd)
    _ = .next { s with rnd := rnd, reply := s.normalReply } := by
      rw [exec_jp_eq, hpc]
      rfl

end Sys2Proof
end

section
/-! PROOFS. What every event keeps: the fault record's bits (R34, R262) and the invariant (R23, R26, R39). -/

namespace Sys2Proof

open Machine

/-! ### The fault record is sticky (R34; the spec's decisions D7 and D8, log 10) -/

/-- From `s` to `t` no bit of FSTAT is cleared, HALTED is not left, and STRICT and LOADED stay. -/
structure RecordKept (s t : State) : Prop where
  fstat : ∀ k, s.fstat.getLsbD k = true → t.fstat.getLsbD k = true
  halted : s.halted = true → t.halted = true
  strict : t.strict = s.strict
  loaded : t.loaded = s.loaded

theorem recordKept_takeFault (s : State) (f : StepFault) : RecordKept s (s.takeFault f) := by
  obtain e | ⟨-, -, ⟨-, e⟩ | ⟨-, e⟩⟩ := takeFault_forms s f <;> rw [e]
  · exact ⟨fun k h => by simp [State.afterMemoryFault, h], fun h => by simp [State.afterMemoryFault, h], rfl, rfl⟩
  · exact ⟨fun k h => by simp [State.afterReject, h], id, rfl, rfl⟩
  · exact ⟨fun k h => by simp [State.afterStrictHalt, h], fun _ => rfl, rfl, rfl⟩

theorem Answers.recordKept {i : Instr} {s t : State} (h : Answers i s t) : RecordKept s t := by
  cases h with
  | fault f hf => exact recordKept_takeFault s f
  | commit w n d hn hw hd =>
    exact ⟨fun k h => (congrArg (·.getLsbD k) hw.fstat).trans h, hw.halted.trans, hw.strict, hw.loaded⟩

theorem StepAnswers.recordKept {s t : State} (h : StepAnswers s t) : RecordKept s t := by
  cases h with
  | fault f => exact recordKept_takeFault s f
  | instr hp hd ha => exact ha.recordKept

/-- Settles O54: of the events but `Load`, only a `Step` writes the record, and each of its answers keeps it. -/
theorem faultRecordIsSticky : Obligations.FaultRecordIsSticky := by
  intro e s t he h
  have hl : s.loaded = true := loaded_of_perform he h
  suffices hk : RecordKept s t from ⟨hk.fstat, hk.halted, hk.strict, hk.loaded⟩
  cases e with
  | load rom font strict => exact absurd rfl (he rom font strict)
  | setKeys k =>
    cases (perform_setKeys_of_loaded k hl).symm.trans h
    exact ⟨fun _ => id, id, rfl, rfl⟩
  | tick =>
    cases (perform_tick_of_loaded hl).symm.trans h
    exact ⟨fun _ => id, id, rfl, rfl⟩
  | step rnd =>
    obtain ⟨-, rfl⟩ | ⟨-, ha⟩ := of_perform_step h
    · exact ⟨fun _ => id, id, rfl, rfl⟩
    · obtain ⟨hf, hh, hs, hl⟩ := ha.recordKept
      exact ⟨hf, hh, hs, hl⟩

/-! ### The invariant (R23, R26, R39) -/

/-- FSTAT stays nonzero when a bit is set. -/
theorem or_ne_zero_of_left {a : BitVec 4} (b : BitVec 4) (h : a ≠ 0) : a ||| b ≠ 0 :=
  fun h0 => h (BitVec.or_eq_zero_iff.1 h0).1

theorem or_faultBit_ne_zero (a : BitVec 4) (f : StepFault) : a ||| faultBit f ≠ 0 :=
  setFstat_eq f a ▸ setFstat_ne_zero f a

/-- The invariant's part while LOADED = 1. -/
structure Sound (s : State) : Prop where
  pc : s.pcInRange
  halt : s.haltJustified
  counters : s.countersJustified
  slots : s.slotsInRange

theorem inv_iff (s : State) : s.Inv ↔ s.mem.wf ∧ (s.loaded = true → Sound s) :=
  and_congr_right fun _ => imp_congr_right fun _ =>
    ⟨fun ⟨hp, hh, hc, hs⟩ => ⟨hp, hh, hc, hs⟩, fun ⟨hp, hh, hc, hs⟩ => ⟨hp, hh, hc, hs⟩⟩

/-- More FSTAT bits justify the counters as well. -/
theorem countersJustified_or {s : State} (h : s.countersJustified) (b : BitVec 4) :
    ({ s with fstat := s.fstat ||| b } : State).countersJustified := by
  obtain ⟨ho, hu, hk⟩ := h
  exact ⟨fun h => ⟨by simp [(ho h).1], (ho h).2⟩, fun h => ⟨by simp [(hu h).1], (hu h).2⟩,
    fun h => ⟨by simp [(hk h).1], (hk h).2⟩⟩

theorem sound_afterMemoryFault {s : State} (h : Sound s) : Sound s.afterMemoryFault where
  pc := h.pc
  halt hh := by
    refine ⟨?_, or_faultBit_ne_zero s.fstat .memoryFault⟩
    obtain hh | hs := Bool.or_eq_true_iff.1 hh
    · exact (h.halt hh).1
    · exact hs
  counters := countersJustified_or h.counters _
  slots := h.slots

theorem sound_afterStrictHalt {s : State} (h : Sound s) (f : StepFault) (hs : s.strict = true) :
    Sound (s.afterStrictHalt f) where
  pc := h.pc
  halt _ := ⟨hs, or_faultBit_ne_zero s.fstat f⟩
  counters := countersJustified_or h.counters _
  slots := h.slots

/-- The counter that moved is the one whose bit was set. -/
theorem countersJustified_afterReject {s : State} (h : s.countersJustified) (f : StepFault) (hs : s.strict = false) :
    (s.afterReject f).countersJustified := by
  obtain ⟨ho, hu, hk⟩ := countersJustified_or h (faultBit f)
  cases f with
  | memoryFault => exact ⟨ho, hu, hk⟩
  | stackOverflow => exact ⟨fun _ => ⟨by simp [State.afterReject, faultBit], hs⟩, hu, hk⟩
  | stackUnderflow => exact ⟨ho, fun _ => ⟨by simp [State.afterReject, faultBit], hs⟩, hk⟩
  | unknownOpcode => exact ⟨ho, hu, fun _ => ⟨by simp [State.afterReject, faultBit], hs⟩⟩

theorem sound_afterReject {s : State} (h : Sound s) (f : StepFault) (hp : s.pc.toNat ≤ 0xFFD) (hs : s.strict = false) :
    Sound (s.afterReject f) where
  pc := by
    show (s.pc + 2#16).toNat ≤ 0xFFF
    bv_omega
  halt hh := ⟨(h.halt hh).1, or_faultBit_ne_zero s.fstat f⟩
  counters := countersJustified_afterReject h.counters f hs
  slots := h.slots

theorem sound_takeFault {s : State} (h : Sound s) (f : StepFault) : Sound (s.takeFault f) := by
  obtain e | ⟨-, hp, ⟨hs, e⟩ | ⟨hs, e⟩⟩ := takeFault_forms s f <;> rw [e]
  · exact sound_afterMemoryFault h
  · exact sound_afterReject h f hp hs
  · exact sound_afterStrictHalt h f hs

theorem takeFault_mem (s : State) (f : StepFault) : (s.takeFault f).mem = s.mem := by
  obtain ⟨-, -, -, -, -, -, -, -, hmem, -⟩ := takeFault_frame s f
  exact hmem

theorem inv_takeFault {s : State} (h : s.Inv) (hl : s.loaded = true) (f : StepFault) : (s.takeFault f).Inv := by
  rw [inv_iff] at h ⊢
  obtain ⟨hm, hs⟩ := h
  exact ⟨(takeFault_mem s f).symm ▸ hm, fun _ => sound_takeFault (hs hl) f⟩

/-- What was fetched lay at 0xFFE or below, so that the address a call pushes is at most 0x1000 (R26). -/
theorem Answers.inv {i : Instr} {s t : State} (ha : Answers i s t) (hp : s.pc.toNat ≤ 0xFFE) (hl : s.loaded = true)
    (h : s.Inv) : t.Inv := by
  cases ha with
  | fault f hf => exact inv_takeFault h hl f
  | commit w n d hn hw hd =>
    rw [inv_iff] at h ⊢
    obtain ⟨hm, hs⟩ := h
    obtain ⟨-, hhalt, hcnt, hslots⟩ := hs hl
    refine ⟨hw.wf hm, fun _ => ⟨(toNat_ofNat_of_le hn).trans_le hn, fun hh => ?_, ?_, hw.slots hslots hp⟩⟩
    · obtain ⟨hstrict, hfstat⟩ := hhalt (hw.halted.symm.trans hh)
      exact ⟨hw.strict.trans hstrict, fun h0 => hfstat (hw.fstat.symm.trans h0)⟩
    · simpa [State.countersJustified, hw.sovfCnt, hw.sunfCnt, hw.unkCnt, hw.fstat, hw.strict] using hcnt

theorem StepAnswers.inv {s t : State} (ha : StepAnswers s t) (hl : s.loaded = true) (h : s.Inv) : t.Inv := by
  cases ha with
  | fault f => exact inv_takeFault h hl f
  | instr hp hd ha => exact ha.inv hp hl h

/-- A state just loaded has PC at 0x200, an empty stack, and nothing recorded. -/
theorem inv_fresh {m : Memory} (hm : m.wf) (strict : Bool) (draws : Nat) (host : List Event) :
    ({ State.reset with mem := m, strict := strict, draws := draws, host := host } : State).Inv :=
  (inv_iff _).2 ⟨hm, fun _ => ⟨(by decide : (0x200#16).toNat ≤ 0xFFF), fun h => absurd h Bool.false_ne_true,
    ⟨fun h => absurd rfl h, fun h => absurd rfl h, fun h => absurd rfl h⟩,
    fun k hk => absurd hk (Nat.not_lt_zero k.val)⟩⟩

/-- Settles O51: the memory that lists nothing is canonical. -/
theorem resetMeetsInvariant : Obligations.ResetMeetsInvariant :=
  inv_fresh ⟨List.Pairwise.nil, by simp⟩ false 0 []

theorem performLoad_of_wellFormed {rom : List Byte} (font : Option Font) (strict : Bool) (s : State)
    (h : romWellFormed rom = true) :
    performLoad rom font strict s = { State.reset with
      mem := loadedMemory rom font, strict := strict, draws := s.draws, host := s.host } :=
  if_pos h

theorem inv_performLoad {s : State} (h : s.Inv) (rom : List Byte) (font : Option Font) (strict : Bool) :
    (performLoad rom font strict s).Inv := by
  cases hr : romWellFormed rom with
  | true =>
    rw [performLoad_of_wellFormed font strict s hr]
    exact inv_fresh (loadedMemory_wf hr font) strict s.draws s.host
  | false =>
    rw [performLoad_of_not_wellFormed font strict s hr]
    exact ⟨h.1, fun hl => absurd hl Bool.false_ne_true⟩

/-- Every event keeps the invariant. -/
theorem inv_perform {e : Event} {s t : State} (h : s.Inv) (hp : perform e s = .next t) : t.Inv := by
  cases e with
  | load rom font strict =>
    cases hp
    exact inv_performLoad h rom font strict
  | setKeys k =>
    cases (perform_setKeys_of_loaded k (loaded_of_perform (by simp) hp)).symm.trans hp
    exact h
  | tick =>
    cases (perform_tick_of_loaded (loaded_of_perform (by simp) hp)).symm.trans hp
    exact h
  | step rnd =>
    have hl : s.loaded = true := loaded_of_perform (by simp) hp
    obtain ⟨-, rfl⟩ | ⟨-, ha⟩ := of_perform_step hp
    · exact h
    · exact ha.inv hl h

/-- Taking the next event off writes the list and the count of draws only, of which the invariant says nothing. -/
theorem inv_nextEvent {s : State} (h : s.Inv) : s.nextEvent.2.Inv := by
  cases hs : s.host with
  | nil => rw [nextEvent_nil hs]; exact h
  | cons e es => rw [nextEvent_cons hs]; exact h

/-- Settles O52: a step performs the next event, and every event keeps the invariant. -/
theorem stepKeepsInvariant : Obligations.StepKeepsInvariant := fun _ _ h hstep =>
  inv_perform (inv_nextEvent h) hstep

end Sys2Proof
end

section
/-! PROOFS. What no instruction reads, the fault record and the host's list (spec/60_exceptions.md R250, log 1), and the
run over pending events. -/

namespace Sys2Proof

open Machine

/-! ### The instructions that branch on the depth of the stack (R141, R142) or on the bounds check (R63) -/

section
variable {s : State}

theorem exec_ret_of_empty (h : s.sp.val = 0) : exec .ret s = .next (s.takeFault .stackUnderflow) := by
  rw [exec, execRet, pop_empty s h]

theorem exec_ret_of_pos (h : 0 < s.sp.val) :
    exec .ret s = commit s { s with sp := ⟨s.sp.val - 1, by omega⟩ } s.stk[s.sp.val - 1].toNat false := by
  rw [exec, execRet, pop_of_pos s h]

theorem exec_call_of_full (nnn : Addr) (h : s.sp.val = 16) :
    exec (.call nnn) s = .next (s.takeFault .stackOverflow) := by
  rw [exec, execCall, push_full s _ h]

theorem exec_call_of_lt (nnn : Addr) (h : s.sp.val < 16) :
    exec (.call nnn) s =
      commit s { s with stk := s.stk.set s.sp.val (BitVec.ofNat 16 s.npc), sp := ⟨s.sp.val + 1, by omega⟩ }
        (absTarget nnn).toNat false := by
  rw [exec, execCall, push_of_lt s _ h]

variable (s)

theorem exec_drw_cases (x y : Reg) (n : Fin 16) :
    exec (.drw x y n) s = .next (s.takeFault .memoryFault) ∨
    ∃ v d, exec (.drw x y n) s = commit s { s with v := v, disp := d } s.npc true := by
  simp only [exec, execDrw]
  split
  · exact .inl rfl
  · exact .inr ⟨_, _, rfl⟩

theorem exec_loadRegs_cases (x : Reg) :
    exec (.loadRegs x) s = .next (s.takeFault .memoryFault) ∨
    ∃ bs : List Byte, bs.length = x.val + 1 ∧
      exec (.loadRegs x) s = commit s { s with v := loadPrefix s.v bs } s.npc false := by
  simp only [exec, execLoadRegs]
  split
  · exact .inl rfl
  · next bs hbs =>
    obtain ⟨-, rfl⟩ := readBlock_eq_some hbs
    exact .inr ⟨_, by simp, rfl⟩

theorem storeBytes_cases (bs : List Byte) :
    storeBytes s bs = .next (s.takeFault .memoryFault) ∨
    ∃ m, storeBytes s bs = commit s { s with mem := m } s.npc false := by
  unfold storeBytes
  split
  · exact .inl rfl
  · exact .inr ⟨_, rfl⟩

end

/-! ### Changing the record under an instruction -/

/-- A change of the fault record and of the host's list, field by field. -/
structure RecordChange where
  fstat : BitVec 4 → BitVec 4
  unkCnt : BitVec 32 → BitVec 32
  sovfCnt : BitVec 32 → BitVec 32
  sunfCnt : BitVec 32 → BitVec 32
  host : List Event → List Event

/-- The state with the change made. -/
def RecordChange.on (m : RecordChange) (s : State) : State :=
  { s with
    fstat := m.fstat s.fstat, unkCnt := m.unkCnt s.unkCnt, sovfCnt := m.sovfCnt s.sovfCnt
    sunfCnt := m.sunfCnt s.sunfCnt, host := m.host s.host }

theorem storeBytes_on (m : RecordChange) (s : State) (bs : List Byte) :
    (∃ g, storeBytes s bs = .next (s.takeFault g) ∧ storeBytes (m.on s) bs = .next ((m.on s).takeFault g)) ∨
    (∃ w n d, storeBytes s bs = commit s w n d ∧ storeBytes (m.on s) bs = commit (m.on s) (m.on w) n d) := by
  have hw : (m.on s).mem.writeBlock (m.on s).dataAddr bs = s.mem.writeBlock s.dataAddr bs := rfl
  simp only [storeBytes, hw]
  split
  · exact .inl ⟨_, rfl, rfl⟩
  · exact .inr ⟨_, _, _, rfl, rfl⟩

/-- Under a change of the record an instruction takes the same fault, or commits the same working copy with the same
change. -/
theorem exec_on (m : RecordChange) (i : Instr) (s : State) :
    (∃ g, exec i s = .next (s.takeFault g) ∧ exec i (m.on s) = .next ((m.on s).takeFault g)) ∨
    (∃ w n d, exec i s = commit s w n d ∧ exec i (m.on s) = commit (m.on s) (m.on w) n d) := by
  cases i
  case ret =>
    obtain h | h := Nat.eq_zero_or_pos s.sp.val
    · exact .inl ⟨_, exec_ret_of_empty h, exec_ret_of_empty (s := m.on s) h⟩
    · exact .inr ⟨_, _, _, exec_ret_of_pos h, exec_ret_of_pos (s := m.on s) h⟩
  case call nnn =>
    obtain h | h := Nat.lt_or_ge s.sp.val 16
    · exact .inr ⟨_, _, _, exec_call_of_lt nnn h, exec_call_of_lt (s := m.on s) nnn h⟩
    · have h16 : s.sp.val = 16 := by omega
      exact .inl ⟨_, exec_call_of_full nnn h16, exec_call_of_full (s := m.on s) nnn h16⟩
  case drw x y n =>
    have hr : (m.on s).mem.readBlock (m.on s).dataAddr n.val = s.mem.readBlock s.dataAddr n.val := rfl
    simp only [exec, execDrw, hr]
    split
    · exact .inl ⟨_, rfl, rfl⟩
    · exact .inr ⟨_, _, _, rfl, rfl⟩
  case loadRegs x =>
    have hr : (m.on s).mem.readBlock (m.on s).dataAddr (x.val + 1) = s.mem.readBlock s.dataAddr (x.val + 1) := rfl
    simp only [exec, execLoadRegs, hr]
    split
    · exact .inl ⟨_, rfl, rfl⟩
    · exact .inr ⟨_, _, _, rfl, rfl⟩
  case ldB x => exact storeBytes_on m s (bcdDigits s.v[x])
  case storeRegs x => exact storeBytes_on m s (s.regsUpTo x)
  case ldVxK x =>
    have hk : lowestKey (m.on s).key = lowestKey s.key := rfl
    simp only [exec, execLdVxK, hk]
    split <;> exact .inr ⟨_, _, _, rfl, rfl⟩
  all_goals exact .inr ⟨_, _, _, rfl, rfl⟩

/-- A fault taken under a change of the record has the same form: PC and STRICT select it. -/
theorem takeFault_on (m : RecordChange) (s : State) (g : StepFault) :
    (s.takeFault g = s.afterMemoryFault ∧ (m.on s).takeFault g = (m.on s).afterMemoryFault) ∨
    (s.takeFault g = s.afterReject g ∧ (m.on s).takeFault g = (m.on s).afterReject g) ∨
    (s.takeFault g = s.afterStrictHalt g ∧ (m.on s).takeFault g = (m.on s).afterStrictHalt g) := by
  by_cases hg : g = .memoryFault
  · exact .inl ⟨hg ▸ takeFault_memoryFault_eq s, hg ▸ takeFault_memoryFault_eq (m.on s)⟩
  obtain hp | hp := Nat.lt_or_ge 0xFFD s.pc.toNat
  · exact .inl ⟨takeFault_at_end hp, takeFault_at_end (s := m.on s) hp⟩
  obtain hs | hs := Bool.eq_false_or_eq_true s.strict
  · exact .inr (.inr ⟨takeFault_strict hg hp hs, takeFault_strict (s := m.on s) hg hp hs⟩)
  · exact .inr (.inl ⟨takeFault_lenient hg hp hs, takeFault_lenient (s := m.on s) hg hp hs⟩)

/-- What a fault taken under a change of the record leaves differs in the record only. -/
theorem takeFault_on_frame (m : RecordChange) (s : State) (g : StepFault) :
    (m.on s).takeFault g = { s.takeFault g with
      fstat := ((m.on s).takeFault g).fstat, unkCnt := ((m.on s).takeFault g).unkCnt
      sovfCnt := ((m.on s).takeFault g).sovfCnt, sunfCnt := ((m.on s).takeFault g).sunfCnt
      host := m.host (s.takeFault g).host } := by
  obtain ⟨e, e'⟩ | ⟨e, e'⟩ | ⟨e, e'⟩ := takeFault_on m s g <;> rw [e, e'] <;> rfl

/-- Settles O57: the change of the record, under which the instruction does the same, leaves the host's list. -/
theorem diagnosticsAreInvisible : Obligations.DiagnosticsAreInvisible := by
  intro i s t t' f a b c h h'
  let m : RecordChange := ⟨fun _ => f, fun _ => a, fun _ => b, fun _ => c, id⟩
  have h' : exec i (m.on s) = .next t' := h'
  obtain ⟨g, hg, hg'⟩ | ⟨w, n, d, hc, hc'⟩ := exec_on m i s
  · cases hg.symm.trans h
    cases hg'.symm.trans h'
    exact takeFault_on_frame m s g
  · obtain ⟨hn, e⟩ | ⟨hn, e⟩ := commit_cases s w n d
    · cases (hc.trans e).symm.trans h
      cases (hc'.trans (commit_of_le hn)).symm.trans h'
      rfl
    · cases (hc.trans e).symm.trans h
      cases (hc'.trans (commit_of_gt hn)).symm.trans h'
      exact takeFault_on_frame m s .memoryFault

/-! ### The host's list (log 1) -/

/-- Another list of the host's events. -/
def RecordChange.withHost (es : List Event) : RecordChange := ⟨id, id, id, id, fun _ => es⟩

section
variable (es : List Event)

theorem takeFault_withHost (s : State) (g : StepFault) :
    ((RecordChange.withHost es).on s).takeFault g = (RecordChange.withHost es).on (s.takeFault g) := by
  obtain ⟨e, e'⟩ | ⟨e, e'⟩ | ⟨e, e'⟩ := takeFault_on (.withHost es) s g <;> rw [e, e'] <;> rfl

theorem exec_withHost {i : Instr} {s t : State} (h : exec i s = .next t) :
    exec i ((RecordChange.withHost es).on s) = .next ((RecordChange.withHost es).on t) := by
  obtain ⟨g, hg, hg'⟩ | ⟨w, n, d, hc, hc'⟩ := exec_on (.withHost es) i s
  · cases hg.symm.trans h
    rw [hg', takeFault_withHost]
  · obtain ⟨hn, e⟩ | ⟨hn, e⟩ := commit_cases s w n d
    · cases (hc.trans e).symm.trans h
      exact hc'.trans (commit_of_le hn)
    · cases (hc.trans e).symm.trans h
      rw [hc', commit_of_gt hn, takeFault_withHost]

theorem runInstruction_withHost {s t : State} (h : runInstruction s = .next t) :
    runInstruction ((RecordChange.withHost es).on s) = .next ((RecordChange.withHost es).on t) := by
  have hf : ((RecordChange.withHost es).on s).fetch = s.fetch := rfl
  unfold runInstruction at h ⊢
  rw [hf]
  split at h
  · cases h
    rw [takeFault_withHost]
  · split at h
    · exact exec_withHost es h
    · cases h
      rw [takeFault_withHost]

theorem performLoad_withHost (rom : List Byte) (font : Option Font) (strict : Bool) (s : State) :
    performLoad rom font strict ((RecordChange.withHost es).on s) =
      (RecordChange.withHost es).on (performLoad rom font strict s) := by
  cases hr : romWellFormed rom with
  | true => rw [performLoad_of_wellFormed _ _ _ hr, performLoad_of_wellFormed _ _ _ hr]; rfl
  | false => rw [performLoad_of_not_wellFormed _ _ _ hr, performLoad_of_not_wellFormed _ _ _ hr]; rfl

/-- An event does the same whatever the host has pending after it. -/
theorem perform_withHost {e : Event} {s t : State} (h : perform e s = .next t) :
    perform e ((RecordChange.withHost es).on s) = .next ((RecordChange.withHost es).on t) := by
  cases e with
  | load rom font strict =>
    cases h
    exact congrArg _ (performLoad_withHost es rom font strict s)
  | setKeys k =>
    have hl : s.loaded = true := loaded_of_perform (by simp) h
    cases (perform_setKeys_of_loaded k hl).symm.trans h
    exact perform_setKeys_of_loaded k hl
  | tick =>
    have hl : s.loaded = true := loaded_of_perform (by simp) h
    cases (perform_tick_of_loaded hl).symm.trans h
    exact perform_tick_of_loaded hl
  | step rnd =>
    have hl : s.loaded = true := loaded_of_perform (by simp) h
    obtain hh | hh := Bool.eq_false_or_eq_true s.halted
    · cases (perform_step_of_halted rnd hl hh).symm.trans h
      exact perform_step_of_halted rnd hl hh
    · have hrun := (perform_step_of_running rnd hl hh).symm.trans h
      exact (perform_step_of_running (s := (RecordChange.withHost es).on s) rnd hl hh).trans
        (runInstruction_withHost es hrun)

end

/-- An event has a transition, or is refused as R31 says. -/
theorem perform_next_or_refused (e : Event) (s : State) :
    (∃ t, perform e s = .next t) ∨ (s.loaded = false ∧ ∀ rom font strict, e ≠ .load rom font strict) := by
  obtain hl | hl := Bool.eq_false_or_eq_true s.loaded
  · left
    cases e with
    | load rom font strict => exact ⟨_, rfl⟩
    | setKeys k => exact ⟨_, perform_setKeys_of_loaded k hl⟩
    | tick => exact ⟨_, perform_tick_of_loaded hl⟩
    | step rnd =>
      obtain ⟨t, ht, -⟩ := perform_step_answers rnd hl
      exact ⟨t, ht⟩
  · cases e with
    | load rom font strict => exact .inl ⟨_, rfl⟩
    | setKeys k => exact .inr ⟨hl, by simp⟩
    | tick => exact .inr ⟨hl, by simp⟩
    | step rnd => exact .inr ⟨hl, by simp⟩

theorem coreRun_of_next {n : Nat} {s t : State} (h : core.step s = .next t) : core.run (n + 1) s = core.run n t := by
  simp only [Host.Core.run, h]

theorem coreRun_of_refused {n : Nat} {s : State} {r : Refusal} (h : core.step s = .refused r) :
    core.run (n + 1) s = .refused r := by
  simp only [Host.Core.run, h]

theorem performAll_cons_of_refused {e : Event} {es : List Event} {s : State} {r : Refusal}
    (h : perform e s = .refused r) : performAll (e :: es) s = .refused r := by
  rw [performAll, h]

/-- Settles O53, by induction on the events: each does the same with the others pending and with nothing pending. -/
theorem pendingEventsRunInOrder : Obligations.PendingEventsRunInOrder := by
  intro es
  induction es with
  | nil => exact fun _ => rfl
  | cons e es ih =>
    intro s
    obtain ⟨t, ht⟩ | ⟨hl, he⟩ := perform_next_or_refused e { s with host := [] }
    · have hes := perform_withHost es ht
      have hnil := perform_withHost [] ht
      have hpend : core.step { s with host := e :: es } = .next { t with host := es } := hes
      have ht' : t = { t with host := [] } := Host.Outcome.next.inj (ht.symm.trans hnil)
      have htail : core.run es.length { t with host := es } = performAll es { t with host := [] } := ih t
      rw [List.length_cons, coreRun_of_next hpend, performAll_cons_of_next ht, htail, ← ht']
    · have hpend : core.step { s with host := e :: es } = .refused .notLoaded :=
        perform_of_not_loaded (s := { s with host := es }) hl he
      exact (coreRun_of_refused hpend).trans (performAll_cons_of_refused (perform_of_not_loaded hl he)).symm

end Sys2Proof
end

section
/-! PROOFS. Which instruction can write which part of the state (spec/10_state.md R21, spec/41_control_flow.md R140). -/

namespace Sys2Proof

open Machine

/-- The instructions that can write VF: the flag writers, and those with a destination named F (R21). -/
def WritesFlag (i : Instr) : Prop :=
  (∃ x y, i = .addReg x y ∨ i = .subReg x y ∨ i = .shrReg x y ∨ i = .subnReg x y ∨ i = .shlReg x y) ∨
  (∃ x y n, i = .drw x y n) ∨
  (∃ nn, i = .ldImm VF nn ∨ i = .addImm VF nn ∨ i = .rnd VF nn) ∨
  (∃ y, i = .ldReg VF y ∨ i = .orReg VF y ∨ i = .andReg VF y ∨ i = .xorReg VF y) ∨
  i = .ldVxDT VF ∨ i = .ldVxK VF ∨ i = .loadRegs VF

/-- The control transfers (R140). -/
def IsControl (i : Instr) : Prop :=
  i = .ret ∨ (∃ nnn, i = .jp nnn ∨ i = .call nnn ∨ i = .jpV0 nnn) ∨ (∃ x nn, i = .seImm x nn ∨ i = .sneImm x nn) ∨
    (∃ x y, i = .seReg x y ∨ i = .sneReg x y)

/-- From `s` to `w` the instruction wrote only what is its own to write. -/
structure Frame (i : Instr) (s w : State) : Prop where
  mem : (∀ x, i ≠ .ldB x ∧ i ≠ .storeRegs x) → w.mem = s.mem
  disp : i ≠ .cls → (∀ x y n, i ≠ .drw x y n) → w.disp = s.disp
  idx : (∀ nnn, i ≠ .ldI nnn) → (∀ x, i ≠ .addI x ∧ i ≠ .ldF x) → w.idx = s.idx
  stack : i ≠ .ret → (∀ nnn, i ≠ .call nnn) → w.sp = s.sp ∧ w.stk = s.stk
  dt : (∀ x, i ≠ .ldDTVx x) → w.dt = s.dt
  st : (∀ x, i ≠ .ldSTVx x) → w.st = s.st
  flag : w.v[VF] ≠ s.v[VF] → WritesFlag i
  control : IsControl i → w.v = s.v

section
variable {i : Instr} {s w t : State}

theorem frame_takeFault (i : Instr) (s : State) (f : StepFault) : Frame i s (s.takeFault f) := by
  obtain ⟨hv, hidx, hsp, hstk, hdt, hst, hdisp, -, hmem, -⟩ := takeFault_frame s f
  exact ⟨fun _ => hmem, fun _ _ => hdisp, fun _ _ => hidx, fun _ _ => ⟨hsp, hstk⟩, fun _ => hdt, fun _ => hst,
    fun h => absurd (congrArg (fun v : Vector Byte 16 => v[VF]) hv) h, fun _ => hv⟩

/-- A commit adds PC and the reply to the working copy, and a fault instead of it writes no more. -/
theorem frame_commit {n : Nat} {d : Bool} (hw : Frame i s w) (h : commit s w n d = .next t) : Frame i s t := by
  obtain ⟨-, e⟩ | ⟨-, e⟩ := commit_cases s w n d
  · cases e.symm.trans h
    exact ⟨hw.mem, hw.disp, hw.idx, hw.stack, hw.dt, hw.st, hw.flag, hw.control⟩
  · cases e.symm.trans h
    exact frame_takeFault i s .memoryFault

theorem frame_of_fault {f : StepFault} (e : exec i s = .next (s.takeFault f)) (h : exec i s = .next t) :
    Frame i s t := by
  cases e.symm.trans h
  exact frame_takeFault i s f

/-! ### The working copies, by the part they wrote -/

theorem frame_refl (i : Instr) (s : State) : Frame i s s :=
  ⟨fun _ => rfl, fun _ _ => rfl, fun _ _ => rfl, fun _ _ => ⟨rfl, rfl⟩, fun _ => rfl, fun _ => rfl,
    fun h => absurd rfl h, fun _ => rfl⟩

theorem frame_v {v : Vector Byte 16} (hflag : v[VF] ≠ s.v[VF] → WritesFlag i) (hi : ¬IsControl i) :
    Frame i s { s with v := v } :=
  { frame_refl i s with flag := hflag, control := fun h => absurd h hi }

/-- Writing a register other than VF leaves VF. -/
theorem flag_of_set {v : Vector Byte 16} {x : Reg} {b : Byte} (hx : x = VF → WritesFlag i) :
    (v.set x b)[VF] ≠ v[VF] → WritesFlag i := by
  intro h
  by_cases hxF : x = VF
  · exact hx hxF
  · exact absurd (Vector.getElem_set_ne _ _ fun e => hxF (Fin.ext e)) h

theorem frame_idx {a : Word} (hi : (∃ nnn, i = .ldI nnn) ∨ ∃ x, i = .addI x ∨ i = .ldF x) :
    Frame i s { s with idx := a } where
  __ := frame_refl i s
  idx hI hA := by
    obtain ⟨nnn, h⟩ | ⟨x, h | h⟩ := hi
    · exact absurd h (hI nnn)
    · exact absurd h (hA x).1
    · exact absurd h (hA x).2

theorem frame_mem {m : Memory} (hi : ∃ x, i = .ldB x ∨ i = .storeRegs x) : Frame i s { s with mem := m } where
  __ := frame_refl i s
  mem hB := by
    obtain ⟨x, h | h⟩ := hi
    · exact absurd h (hB x).1
    · exact absurd h (hB x).2

theorem frame_stack {sp : Fin 17} {stk : Vector Word 16} (hi : i = .ret ∨ ∃ nnn, i = .call nnn) :
    Frame i s { s with sp := sp, stk := stk } where
  __ := frame_refl i s
  stack hR hC := by
    obtain h | ⟨nnn, h⟩ := hi
    · exact absurd h hR
    · exact absurd h (hC nnn)

variable (s)

theorem frame_dt (x : Reg) (b : Byte) : Frame (.ldDTVx x) s { s with dt := b } where
  __ := frame_refl _ s
  dt hD := absurd rfl (hD x)

theorem frame_st (x : Reg) (b : Byte) : Frame (.ldSTVx x) s { s with st := b } where
  __ := frame_refl _ s
  st hS := absurd rfl (hS x)

theorem frame_cls (d : Display) : Frame .cls s { s with disp := d } where
  __ := frame_refl _ s
  disp hC := absurd rfl hC

theorem frame_drw (x y : Reg) (n : Fin 16) (v : Vector Byte 16) (d : Display) :
    Frame (.drw x y n) s { s with v := v, disp := d } where
  __ := frame_refl _ s
  disp _ hD := absurd rfl (hD x y n)
  flag _ := by simp [WritesFlag]
  control hc := by simp [IsControl] at hc

end

/-- Registers past the loaded ones keep their values, so a load writes VF only where it ends at VF. -/
theorem flag_of_loadPrefix {v : Vector Byte 16} {x : Reg} {bs : List Byte} (hbs : bs.length = x.val + 1) :
    (loadPrefix v bs)[VF] ≠ v[VF] → WritesFlag (.loadRegs x) := by
  intro h
  by_cases hx : x = VF
  · subst hx
    simp [WritesFlag]
  · have hx15 : x.val ≠ 15 := fun e => hx (Fin.ext e)
    have hlt : x.val < 16 := x.isLt
    exact absurd (getElem_loadPrefix_of_ge v (k := VF) (by rw [hbs]; show x.val + 1 ≤ 15; omega)) h

/-- The two stores, given as the bytes they store. -/
theorem frame_storeBytes {i : Instr} {s t : State} {bs : List Byte} (hi : ∃ x, i = .ldB x ∨ i = .storeRegs x)
    (hbs : exec i s = storeBytes s bs) (h : exec i s = .next t) : Frame i s t := by
  obtain e | ⟨m, e⟩ := storeBytes_cases s bs
  · exact frame_of_fault (hbs.trans e) h
  · exact frame_commit (frame_mem hi) ((hbs.trans e).symm.trans h)

/-- Every instruction writes only what is its own to write. -/
theorem exec_frame {i : Instr} {s t : State} (h : exec i s = .next t) : Frame i s t := by
  cases i
  case jp | jpV0 | seImm | sneImm | seReg | sneReg | skp | sknp => exact frame_commit (frame_refl _ s) h
  case ldImm | addImm | ldReg | orReg | andReg | xorReg | rnd | ldVxDT =>
    exact frame_commit (frame_v (flag_of_set fun hx => by simp [WritesFlag, hx]) (by simp [IsControl])) h
  case addReg | subReg | shrReg | subnReg | shlReg =>
    exact frame_commit (frame_v (fun _ => by simp [WritesFlag]) (by simp [IsControl])) h
  case ldI | addI | ldF => exact frame_commit (frame_idx (by simp)) h
  case ldDTVx x => exact frame_commit (frame_dt s x _) h
  case ldSTVx x => exact frame_commit (frame_st s x _) h
  case ldB x => exact frame_storeBytes ⟨x, .inl rfl⟩ (exec_ldB_eq x s) h
  case storeRegs x => exact frame_storeBytes ⟨x, .inr rfl⟩ (exec_storeRegs_eq x s) h
  case cls => exact frame_commit (frame_cls s _) h
  case ret =>
    obtain h0 | h0 := Nat.eq_zero_or_pos s.sp.val
    · exact frame_of_fault (exec_ret_of_empty h0) h
    · exact frame_commit (frame_stack (.inl rfl)) ((exec_ret_of_pos h0).symm.trans h)
  case call nnn =>
    obtain h16 | h16 := Nat.lt_or_ge s.sp.val 16
    · exact frame_commit (frame_stack (.inr ⟨nnn, rfl⟩)) ((exec_call_of_lt nnn h16).symm.trans h)
    · exact frame_of_fault (exec_call_of_full nnn (by omega)) h
  case drw x y n =>
    obtain e | ⟨v, d, e⟩ := exec_drw_cases s x y n
    · exact frame_of_fault e h
    · exact frame_commit (frame_drw s x y n v d) (e.symm.trans h)
  case loadRegs x =>
    obtain e | ⟨bs, hbs, e⟩ := exec_loadRegs_cases s x
    · exact frame_of_fault e h
    · exact frame_commit (frame_v (flag_of_loadPrefix hbs) (by simp [IsControl])) (e.symm.trans h)
  case ldVxK x =>
    cases hk : lowestKey s.key with
    | none =>
      rw [exec, execLdVxK, hk] at h
      exact frame_commit (frame_refl _ s) h
    | some k =>
      rw [exec_ldVxK_of_lowestKey hk] at h
      exact frame_commit (frame_v (flag_of_set fun hx => by simp [WritesFlag, hx]) (by simp [IsControl])) h

/-- Settles O29: the frame of every instruction names what can write VF. -/
theorem onlyFlagWritersTouchVF : Obligations.OnlyFlagWritersTouchVF := fun _ _ _ h => (exec_frame h).flag

/-- Settles O37: the frame of every instruction, part by part. -/
theorem eachStateHasItsWriters : Obligations.EachStateHasItsWriters := by
  intro i s t h
  have hf : Frame i s t := exec_frame h
  exact ⟨hf.mem, hf.disp, hf.idx, hf.stack, hf.dt, hf.st⟩

/-- Settles O21: a control transfer is none of the writers of the other fields. -/
theorem controlTransferFrame : Obligations.ControlTransferFrame := by
  intro i s t hi h
  have hf : Frame i s t := exec_frame h
  refine ⟨hf.control hi, ?_⟩
  obtain rfl | ⟨nnn, rfl | rfl | rfl⟩ | ⟨x, nn, rfl | rfl⟩ | ⟨x, y, rfl | rfl⟩ := hi <;>
    exact ⟨hf.idx (by simp) (by simp), hf.dt (by simp), hf.st (by simp), hf.disp (by simp) (by simp), hf.mem (by simp)⟩

end Sys2Proof
end

section
/-! PROOFS. The final PC check, the call and the return, and the offset jump (spec/40_step_and_dispatch.md R126,
spec/41_control_flow.md R141, R142, R147, R149). -/

namespace Sys2Proof

open Machine

/-! ### The final PC check (R126; the spec's decisions D5 and D22, logs 9 and 11) -/

theorem commit_past_end {s w : State} {n : Nat} {d : Bool} (hn : 0xFFF < n) :
    commit s w n d = .next s.afterMemoryFault := by
  rw [commit_of_gt hn, takeFault_memoryFault_eq]

/-- An instruction that goes on to the next one does so past the end of memory. -/
theorem commit_npc_at_end {s w : State} {d : Bool} (hp : 0xFFD < s.pc.toNat) :
    commit s w s.npc d = .next s.afterMemoryFault :=
  commit_past_end (by simp only [State.npc]; omega)

theorem commitSkip_taken_at_end {s : State} {c : Bool} (hc : c = true) (hp : 0xFFB < s.pc.toNat) :
    commitSkip s c = .next s.afterMemoryFault := by
  rw [hc]
  exact commit_past_end (by simp only [State.npc, if_true]; omega)

/-- At the end of memory a skip faults, taken or not. -/
theorem commitSkip_at_end {s : State} {c : Bool} (hp : 0xFFD < s.pc.toNat) :
    commitSkip s c = .next s.afterMemoryFault := by
  cases c with
  | false => exact commit_npc_at_end hp
  | true => exact commitSkip_taken_at_end rfl (by omega)

theorem storeBytes_at_end {s : State} {bs : List Byte} (hp : 0xFFD < s.pc.toNat) :
    storeBytes s bs = .next s.afterMemoryFault := by
  obtain e | ⟨m, e⟩ := storeBytes_cases s bs
  · rw [e, takeFault_memoryFault_eq]
  · rw [e, commit_npc_at_end hp]

/-- At the end of memory every instruction ends in a MemoryFault that goes on to the next one, skips, or takes a MemoryFault
of its own. -/
theorem exec_at_end {i : Instr} {s : State} (hp : 0xFFD < s.pc.toNat) (hret : i ≠ .ret)
    (hjump : ∀ nnn, i ≠ .jp nnn ∧ i ≠ .call nnn ∧ i ≠ .jpV0 nnn) (hkey : ∀ x, i = .ldVxK x → s.key ≠ 0) :
    exec i s = .next s.afterMemoryFault := by
  cases i
  case ret => exact absurd rfl hret
  case jp nnn | call nnn | jpV0 nnn => simp at hjump
  case seImm | sneImm | seReg | sneReg | skp | sknp => exact commitSkip_at_end hp
  case ldB x => exact storeBytes_at_end (bs := bcdDigits s.v[x]) hp
  case storeRegs x => exact storeBytes_at_end (bs := s.regsUpTo x) hp
  case drw x y n =>
    obtain e | ⟨v, d, e⟩ := exec_drw_cases s x y n
    · rw [e, takeFault_memoryFault_eq]
    · rw [e, commit_npc_at_end hp]
  case loadRegs x =>
    obtain e | ⟨bs, -, e⟩ := exec_loadRegs_cases s x
    · rw [e, takeFault_memoryFault_eq]
    · rw [e, commit_npc_at_end hp]
  case ldVxK x =>
    obtain ⟨k, hk⟩ := Option.ne_none_iff_exists'.1 fun h => hkey x rfl ((lowestKey_eq_none s.key).1 h)
    rw [exec_ldVxK_of_lowestKey hk]
    exact commit_npc_at_end hp
  all_goals exact commit_npc_at_end hp

theorem exec_skp_eq (x : Reg) (s : State) : exec (.skp x) s = commitSkip s (s.key.getLsbD (s.v[x].toNat % 16)) := rfl

theorem exec_sknp_eq (x : Reg) (s : State) : exec (.sknp x) s = commitSkip s (!s.key.getLsbD (s.v[x].toNat % 16)) := rfl

theorem exec_jpV0_eq (nnn : Addr) (s : State) :
    exec (.jpV0 nnn) s = commit s s (nnn.toNat + s.v[V0].toNat) false := rfl

/-- A return with the last used slot named. -/
theorem exec_ret_of_slot {s : State} (k : Fin 16) (hk : s.sp.val = k.val + 1) :
    ∃ sp : Fin 17, sp.val = k.val ∧ exec .ret s = commit s { s with sp := sp } s.stk[k].toNat false := by
  have hslot : s.sp.val - 1 = k.val := by omega
  refine ⟨⟨s.sp.val - 1, by omega⟩, hslot, ?_⟩
  rw [exec_ret_of_pos (by omega)]
  simp only [hslot, Fin.getElem_fin]

/-- Settles O13: by the next PC of each; a rejected call or return is at the end of memory as well. -/
theorem finalPcCheckFaults : Obligations.FinalPcCheckFaults := by
  intro s
  refine ⟨fun i => exec_at_end, fun x y hp h => ?_, fun x y hp h => ?_, fun x nn hp h => ?_, fun x nn hp h => ?_,
    fun x hp h => ?_, fun x hp h => ?_, fun nnn h => ?_, fun k hk h => ?_, fun hp h => ?_, fun nnn hp h => ?_⟩
  · exact commitSkip_taken_at_end (beq_iff_eq.2 h) hp
  · exact commitSkip_taken_at_end (bne_iff_ne.2 h) hp
  · exact commitSkip_taken_at_end (beq_iff_eq.2 h) hp
  · exact commitSkip_taken_at_end (bne_iff_ne.2 h) hp
  · exact commitSkip_taken_at_end h hp
  · exact commitSkip_taken_at_end (congrArg not h) hp
  · exact commit_past_end h
  · obtain ⟨sp, -, hret⟩ := exec_ret_of_slot k hk
    rw [hret, commit_past_end h]
  · rw [exec_ret_of_empty h, takeFault_at_end hp]
  · rw [exec_call_of_full nnn h, takeFault_at_end hp]

/-! ### The jumps, the call and the return -/

/-- Settles O42: each skip is taken where the key of the low nibble is down, or is not. -/
theorem keySkipsTestLowNibble : Obligations.KeySkipsTestLowNibble := by
  intro x s
  rw [exec_skp_eq, exec_sknp_eq]
  exact ⟨decodeTableWord_of_eq_encodeWord (tableWord_formXFF_low_first 0xE x 0x9E),
    decodeTableWord_of_eq_encodeWord (tableWord_formXFF_low_first 0xE x 0xA1),
    commitSkip_eq_of_true, commitSkip_eq_of_false,
    fun h => commitSkip_eq_of_true (congrArg not h), fun h => commitSkip_eq_of_false (congrArg not h)⟩

/-- Settles O19: the sum passes the final PC check, which keeps it as it is. -/
theorem jumpWithOffsetAddsV0 : Obligations.JumpWithOffsetAddsV0 := fun nnn _ =>
  ⟨decodeTableWord_of_eq_encodeWord (tableWord_formNNN 0xB nnn),
    fun h => ⟨_, commit_of_le h, toNat_ofNat_of_le h, rfl⟩⟩

/-- A call with the first free slot named. -/
theorem exec_call_of_slot {s : State} (nnn : Addr) (h : s.sp.val < 16) :
    exec (.call nnn) s = .next { s with
      stk := s.stk.set s.sp.val (s.pc + 2#16), sp := ⟨s.sp.val + 1, by omega⟩
      pc := nnn.setWidth 16, reply := s.normalReply } := by
  rw [exec_call_of_lt nnn h, commit_of_le (toNat_absTarget_le nnn), ofNat_npc, BitVec.ofNat_toNat, BitVec.setWidth_eq]
  rfl

/-- Settles O15: the push writes the first free slot, and the full stack takes its fault. -/
theorem callPushesReturnAddress : Obligations.CallPushesReturnAddress := by
  intro nnn s
  refine ⟨decodeTableWord_of_eq_encodeWord (tableWord_formNNN 0x2 nnn), fun k hk => ?_, fun h hp hs => ?_,
    fun h hp hs => ?_⟩
  · have hlt : s.sp.val < 16 := hk ▸ k.isLt
    refine ⟨_, exec_call_of_slot nnn hlt, ?_, fun j hj => ?_, rfl, rfl⟩
    · simp [hk]
    · exact Vector.getElem_set_ne hlt j.isLt fun e => hj (Fin.ext (e.symm.trans hk))
  · rw [exec_call_of_full nnn h, takeFault_lenient (by decide) hp hs]
    rfl
  · rw [exec_call_of_full nnn h, takeFault_strict (by decide) hp hs]
    rfl

/-- A return to an address in memory. -/
theorem exec_ret_eq {s : State} (k : Fin 16) (hk : s.sp.val = k.val + 1) (h : s.stk[k].toNat ≤ 0xFFF) :
    ∃ sp : Fin 17, sp.val = k.val ∧
      exec .ret s = .next { s with sp := sp, pc := s.stk[k], reply := s.normalReply } := by
  obtain ⟨sp, hsp, hret⟩ := exec_ret_of_slot k hk
  refine ⟨sp, hsp, ?_⟩
  rw [hret, commit_of_le h, BitVec.ofNat_toNat, BitVec.setWidth_eq]
  rfl

/-- Settles O16: the pop leaves the slots, and the empty stack takes its fault. -/
theorem returnPopsIntoPc : Obligations.ReturnPopsIntoPc := by
  intro s
  refine ⟨decodeTableWord_of_eq_encodeWord (i := .ret) rfl, fun k hk h => ?_, fun h hp hs => ?_, fun h hp hs => ?_⟩
  · obtain ⟨sp, hsp, hret⟩ := exec_ret_eq k hk h
    exact ⟨_, hret, hsp, rfl⟩
  · rw [exec_ret_of_empty h, takeFault_lenient (by decide) hp hs]
    rfl
  · rw [exec_ret_of_empty h, takeFault_strict (by decide) hp hs]
    rfl

/-- Settles O20: the slot that the call pushed is the one that the return pops. -/
theorem callThenReturnComesBack : Obligations.CallThenReturnComesBack := by
  intro s nnn hl hh hhost hp hnnn hsp hcall hret
  let s₁ : State := { s with rnd := Config.randomByte s.draws, draws := s.draws + 1 }
  have hstep : step s = exec (.call nnn) s₁ := (stepRunsDecodedInstruction s _ hl hh (by omega) hcall).2 hhost
  obtain ⟨-, hpush, -⟩ := callPushesReturnAddress nnn s₁
  obtain ⟨t, hexec, hslot, -, hdepth, ht⟩ := hpush ⟨s.sp.val, hsp⟩ rfl
  have hpc : t.pc = nnn.setWidth 16 := congrArg State.pc ht
  have hpcNat : t.pc.toNat = nnn.toNat := by rw [hpc]; bv_omega
  obtain ⟨hv, hidx, -, -, hdisp, hmem⟩ := controlTransferFrame _ _ _ (by simp) hexec
  let t₁ : State := { t with rnd := Config.randomByte t.draws, draws := t.draws + 1 }
  have hstep' : step t = exec .ret t₁ := by
    refine (stepRunsDecodedInstruction t _ ((congrArg State.loaded ht).trans hl) ((congrArg State.halted ht).trans hh)
      (by omega) ?_).2 ((congrArg State.host ht).trans hhost)
    rw [show t.mem = s.mem from hmem, hpcNat]
    exact hret
  have hle : t₁.stk[s.sp.val].toNat ≤ 0xFFF := by
    rw [show t₁.stk[s.sp.val] = s.pc + 2#16 from hslot]
    bv_omega
  obtain ⟨-, hpop, -⟩ := returnPopsIntoPc t₁
  obtain ⟨u, hexec', hdepth', hu⟩ := hpop ⟨s.sp.val, hsp⟩ hdepth hle
  obtain ⟨hv', hidx', -, -, hdisp', hmem'⟩ := controlTransferFrame _ _ _ (by simp) hexec'
  exact ⟨t, u, hstep.trans hexec, hpc, hdepth, hstep'.trans hexec', (congrArg State.pc hu).trans hslot, Fin.ext hdepth',
    hv'.trans hv, hidx'.trans hidx, hmem'.trans hmem, hdisp'.trans hdisp⟩

end Sys2Proof
end

section
/-! PROOFS. Logic, shifts, the random byte and the index sums (spec/42_register_alu.md R164 to R166, R170, R172, R173,
spec/43_index_memory.md R192, R193), and what is read back after a store (R74, R197). -/

namespace Sys2Proof

open Machine

/-! ### One register written -/

/-- An instruction that wrote to Vx a byte given bit by bit. -/
theorem commitNext_setV_bits {s : State} {x : Reg} {b : Byte} {bit : Nat → Bool} (hp : s.pc.toNat ≤ 0xFFD)
    (hb : ∀ k, b.getLsbD k = bit k) :
    ∃ t, commitNext s (s.setV x b) = .next t ∧ (∀ k, t.v[x].getLsbD k = bit k) ∧
      t = { s with v := s.v.set x t.v[x], pc := s.pc + 2#16, reply := s.normalReply } := by
  have hx : (s.v.set x b)[x] = b := getV_setV_same s x b
  refine ⟨_, commitNext_regs_eq (s.v.set x b) hp, fun k => ?_, by simp only [hx]⟩
  exact (congrArg (·.getLsbD k) hx).trans (hb k)

theorem exec_orReg_eq (x y : Reg) (s : State) :
    exec (.orReg x y) s = commitNext s (s.setV x (s.v[x] ||| s.v[y])) := rfl

theorem exec_andReg_eq (x y : Reg) (s : State) :
    exec (.andReg x y) s = commitNext s (s.setV x (s.v[x] &&& s.v[y])) := rfl

theorem exec_xorReg_eq (x y : Reg) (s : State) :
    exec (.xorReg x y) s = commitNext s (s.setV x (s.v[x] ^^^ s.v[y])) := rfl

theorem exec_rnd_eq (x : Reg) (nn : Byte) (s : State) :
    exec (.rnd x nn) s = commitNext s (s.setV x (s.rnd &&& nn)) := rfl

/-- Settles O24: each writes Vx only, with the operation's bits. -/
theorem logicIsBitwiseWithoutFlag : Obligations.LogicIsBitwiseWithoutFlag := by
  intro x y s hp
  rw [exec_orReg_eq, exec_andReg_eq, exec_xorReg_eq]
  exact ⟨decodeTableWord_of_eq_encodeWord (tableWord_formXYN_low_first 0x8 0x1 x y),
    decodeTableWord_of_eq_encodeWord (tableWord_formXYN_low_first 0x8 0x2 x y),
    decodeTableWord_of_eq_encodeWord (tableWord_formXYN_low_first 0x8 0x3 x y),
    commitNext_setV_bits hp fun _ => BitVec.getLsbD_or, commitNext_setV_bits hp fun _ => BitVec.getLsbD_and,
    commitNext_setV_bits hp fun _ => BitVec.getLsbD_xor⟩

/-! ### VF, then Vx (R167) -/

/-- Vx is written last, so it holds the result even where x is F. -/
theorem flagThenSet_v_same (s : State) (x : Reg) (b : Byte) (flag : Bool) : (s.flagThenSet x b flag).v[x] = b :=
  getV_setV_same (s.setV VF (flagByte flag)) x b

theorem flagThenSet_v_VF (s : State) {x : Reg} (hx : x ≠ VF) (b : Byte) (flag : Bool) :
    (s.flagThenSet x b flag).v[VF] = flagByte flag :=
  (getV_setV_other (s.setV VF (flagByte flag)) hx.symm b).trans (getV_setV_same s VF (flagByte flag))

theorem flagThenSet_v_other (s : State) {x k : Reg} (hkx : k ≠ x) (hkF : k ≠ VF) (b : Byte) (flag : Bool) :
    (s.flagThenSet x b flag).v[k] = s.v[k] :=
  (getV_setV_other (s.setV VF (flagByte flag)) hkx b).trans (getV_setV_other s hkF (flagByte flag))

/-- An instruction that wrote VF and then Vx and goes on to the next one: the result and the flag as numbers, and the
frame. -/
theorem commitNext_flagThenSet {s : State} {x : Reg} {b : Byte} {flag : Bool} {n f : Nat} (hp : s.pc.toNat ≤ 0xFFD)
    (hn : b.toNat = n) (hf : (flagByte flag).toNat = f) :
    ∃ t, commitNext s (s.flagThenSet x b flag) = .next t ∧
      t.v[x].toNat = n ∧ (x ≠ VF → t.v[VF].toNat = f) ∧ (∀ k : Reg, k ≠ x → k ≠ VF → t.v[k] = s.v[k]) ∧
      t = { s with v := t.v, pc := s.pc + 2#16, reply := s.normalReply } :=
  ⟨_, commitNext_regs_eq (s.flagThenSet x b flag).v hp,
    (congrArg BitVec.toNat (flagThenSet_v_same s x b flag)).trans hn,
    fun hx => (congrArg BitVec.toNat (flagThenSet_v_VF s hx b flag)).trans hf,
    fun _ hkx hkF => flagThenSet_v_other s hkx hkF b flag, rfl⟩

theorem exec_shrReg_eq (x y : Reg) (s : State) :
    exec (.shrReg x y) s = commitNext s (s.flagThenSet x (s.v[y] >>> 1) (lowBit s.v[y])) := rfl

theorem exec_shlReg_eq (x y : Reg) (s : State) :
    exec (.shlReg x y) s = commitNext s (s.flagThenSet x (s.v[y] <<< 1) (highBit s.v[y])) := rfl

theorem toNat_shr_one (b : Byte) : (b >>> 1).toNat = b.toNat / 2 := by
  rw [BitVec.toNat_ushiftRight, Nat.shiftRight_eq_div_pow]

theorem toNat_shl_one (b : Byte) : (b <<< 1).toNat = 2 * b.toNat % 256 := by
  rw [BitVec.toNat_shiftLeft, Nat.shiftLeft_eq, Nat.mul_comm]

/-- Settles O27: both shifts are one argument, with the bit pushed out as the flag. -/
theorem shiftsReadVy : Obligations.ShiftsReadVy := by
  intro x y s hp
  rw [exec_shrReg_eq, exec_shlReg_eq]
  exact ⟨decodeTableWord_of_eq_encodeWord (tableWord_formXYN_low_first 0x8 0x6 x y),
    decodeTableWord_of_eq_encodeWord (tableWord_formXYN_low_first 0x8 0xE x y),
    commitNext_flagThenSet hp (toNat_shr_one s.v[y]) (flagByte_lowBit s.v[y]),
    commitNext_flagThenSet hp (toNat_shl_one s.v[y]) (flagByte_highBit s.v[y])⟩

/-- Settles O28: the bits of a conjunction. -/
theorem randomIsMasked : Obligations.RandomIsMasked := by
  intro x nn s hp
  rw [exec_rnd_eq]
  refine ⟨decodeTableWord_of_eq_encodeWord (tableWord_formXNN 0xC x nn), ?_⟩
  obtain ⟨t, ht, hbit, hframe⟩ :=
    commitNext_setV_bits (x := x) (b := s.rnd &&& nn) hp fun _ => BitVec.getLsbD_and
  have hv : t.v = s.v.set x t.v[x] := by conv_lhs => rw [hframe]
  exact ⟨t, ht, hbit, fun k hk => (congrArg (·[k]) hv).trans (getV_setV_other s hk t.v[x]),
    hframe.trans (by rw [← hv])⟩

/-! ### The index sums -/

theorem exec_addI_eq (x : Reg) (s : State) :
    exec (.addI x) s = commitNext s { s with idx := s.idx + s.v[x].setWidth 16 } := rfl

theorem exec_ldF_eq (x : Reg) (s : State) :
    exec (.ldF x) s = commitNext s { s with idx := BitVec.ofNat 16 (s.glyphAddr x) } := rfl

theorem toNat_idx_add (i : Word) (b : Byte) : (i + b.setWidth 16).toNat = (i.toNat + b.toNat) % 65536 := by
  have hb : b.toNat < 256 := b.isLt
  rw [BitVec.toNat_add, BitVec.toNat_setWidth, Nat.mod_eq_of_lt (a := b.toNat) (by omega)]

/-- The sixteen glyphs lie below 4096, so the address is not cut. -/
theorem toNat_glyphAddr (s : State) (x : Reg) :
    (BitVec.ofNat 16 (s.glyphAddr x)).toNat = 0x050 + 5 * (s.v[x].toNat % 16) :=
  toNat_ofNat_of_le (show 0x050 + 5 * (s.v[x].toNat % 16) ≤ 0xFFF by omega)

/-- Settles O31: the working copy of each differs from the state in I only. -/
theorem indexArithmetic : Obligations.IndexArithmetic := by
  intro x s hp
  rw [exec_addI_eq, exec_ldF_eq]
  exact ⟨decodeTableWord_of_eq_encodeWord (tableWord_formXFF_low_first 0xF x 0x1E),
    decodeTableWord_of_eq_encodeWord (tableWord_formXFF_low_first 0xF x 0x29),
    ⟨_, commitNext_of_le hp, toNat_idx_add s.idx s.v[x], rfl⟩, ⟨_, commitNext_of_le hp, toNat_glyphAddr s x, rfl⟩⟩

/-! ### Reading back what was stored -/

/-- Settles O35: the store put the registers at I, and the load takes them from there. -/
theorem storeLoadRoundTrip : Obligations.StoreLoadRoundTrip := by
  intro x s t u hm hp hb hstore hidx hpu hsame
  obtain ⟨-, hs, -⟩ := storeRegistersToMemory x s hm hp
  obtain ⟨t', ht', hstored, -, hframe⟩ := hs hb
  cases hstore.symm.trans ht'
  have hti : t.idx = s.idx := by rw [hframe]
  have hui : u.idx.toNat = s.idx.toNat := by rw [hidx, hti]
  obtain ⟨-, hl, -⟩ := loadRegistersFromMemory x u hpu
  obtain ⟨w, hw, hloaded, -⟩ := hl (by omega)
  refine ⟨w, hw, fun k hk => ?_⟩
  calc w.v[k]
    _ = u.mem.read (u.idx.toNat + k.val) := hloaded k hk
    _ = t.mem.read (t.idx.toNat + k.val) := by rw [hidx]; exact hsame k hk
    _ = s.v[k] := by rw [hti]; exact hstored k hk

/-- After a store of `bs` at I every address reads as `byteAfterStore` says, and PC is past the instruction. -/
theorem storeBytes_byteAfterStore {s : State} {bs : List Byte} (hm : s.mem.wf) (hp : s.pc.toNat ≤ 0xFFD)
    (hb : s.idx.toNat + bs.length ≤ 4096) :
    ∃ t, storeBytes s bs = .next t ∧ t.pc = s.pc + 2#16 ∧ ∀ a, t.mem.read a = s.byteAfterStore bs a := by
  obtain ⟨t, ht, hstored, hother, hframe⟩ := storeBytes_of_le hm hp hb
  refine ⟨t, ht, congrArg State.pc hframe, fun a => ?_⟩
  unfold State.byteAfterStore
  split
  · next ha =>
    obtain ⟨k, rfl⟩ := Nat.exists_eq_add_of_le ha.1
    have hk : k < bs.length := by omega
    simp [hstored k hk, hk]
  · next ha => exact hother a (by omega)

/-- The fetch of any two bytes after a store of `bs` at I. -/
theorem fetch_after_storeBytes {s : State} {bs : List Byte} (hm : s.mem.wf) (hp : s.pc.toNat ≤ 0xFFD)
    (hb : s.idx.toNat + bs.length ≤ 4096) :
    ∃ t, storeBytes s bs = .next t ∧ t.pc = s.pc + 2#16 ∧ ∀ p : Word, p.toNat ≤ 0xFFE →
      ({ t with pc := p } : State).fetch =
        some [s.byteAfterStore bs p.toNat, s.byteAfterStore bs (p.toNat + 1)] := by
  obtain ⟨t, ht, hpc, hread⟩ := storeBytes_byteAfterStore hm hp hb
  refine ⟨t, ht, hpc, fun p hle => ?_⟩
  rw [← hread, ← hread]
  exact fetch_of_le { t with pc := p } hle

/-- V0, …, Vx as the claim lists them. -/
theorem regsUpTo_eq_map_range (s : State) (x : Reg) :
    s.regsUpTo x = (List.range (x.val + 1)).map fun k => s.v[k]?.getD 0 := by
  refine List.ext_getElem (by simp) fun k hk _ => ?_
  have hk16 : k < 16 := by rw [length_regsUpTo] at hk; omega
  rw [getElem_regsUpTo s x ⟨k, hk16⟩ hk]
  simp [hk16]

/-- The digits as the claim divides them. -/
theorem bcdDigits_eq_div (b : Byte) : bcdDigits b = [b / 100#8, b / 10#8 % 10#8, b % 10#8] := by
  revert b
  decide

/-- Settles O36: both are stores at I, of the registers and of the digits. -/
theorem storeIsSeenByNextFetch : Obligations.StoreIsSeenByNextFetch := by
  intro x s hm hp
  rw [exec_storeRegs_eq, exec_ldB_eq, ← regsUpTo_eq_map_range, ← bcdDigits_eq_div]
  exact ⟨fun hb => fetch_after_storeBytes hm hp (by rw [length_regsUpTo]; omega),
    fun hb => fetch_after_storeBytes hm hp (by rw [length_bcdDigits]; omega)⟩

end Sys2Proof
end

section
/-! PROOFS. The state after a `Load` and after reset (spec/10_state.md R38, spec/20_memory.md R61, R291 to R293). -/

namespace Sys2Proof

open Machine

/-- The cleared display, cell by cell (R211). -/
theorem cell_clearDisplay (r c : Nat) : clearDisplay.cell r c = false := by
  simp [Display.cell, clearDisplay]

/-! ### Memory after a `Load` (R61) -/

theorem length_fontBytes (font : Option Font) : (fontBytes font).length = 80 := Vector.length_toList

theorem fill_pairwise {m : Memory} (hm : m.Pairwise (fun p q => p.1 < q.1)) (bs : List Byte) (a : Nat) :
    (m.fill a bs).Pairwise (fun p q => p.1 < q.1) := by
  induction bs generalizing m a with
  | nil => exact hm
  | cons b bs ih => exact ih (write_pairwise hm a b) (a + 1)

theorem resetByte_of_lt {a : Nat} (h : a < 0x050) : resetByte a = 0#8 := if_neg (Nat.not_le.2 h)

/-- The default font has 80 bytes, so no address from 0x0A0 on is listed in it. -/
theorem resetByte_of_ge {a : Nat} (h : 0x0A0 ≤ a) : resetByte a = 0#8 := by
  have hge : 80 ≤ a - Config.fontBase := by simp only [Config.fontBase]; omega
  have hnone : Config.defaultFont[a - Config.fontBase]? = none := Vector.getElem?_eq_none hge
  rw [resetByte, hnone]
  exact ite_self 0#8

section
variable (rom : List Byte) (font : Option Font)

theorem read_loadedMemory_font (k : Nat) (hk : k < 80) :
    (loadedMemory rom font).read (0x050 + k) = (font.getD Config.defaultFont)[k] := by
  have hlen : k < (fontBytes font).length := (length_fontBytes font).symm ▸ hk
  calc (loadedMemory rom font).read (0x050 + k)
    _ = (Memory.fill [] 0x050 (fontBytes font)).read (0x050 + k) :=
      read_fill_other _ _ _ (.inl (by simp only [Config.progBase]; omega))
    _ = (fontBytes font)[k] := read_fill_same .nil _ _ k hlen
    _ = (font.getD Config.defaultFont)[k] := Vector.getElem_toList hlen

theorem read_loadedMemory_rom (k : Nat) (hk : k < rom.length) : (loadedMemory rom font).read (0x200 + k) = rom[k] :=
  read_fill_same (fill_pairwise .nil _ _) rom 0x200 k hk

/-- Outside the font and the ROM memory is as if nothing had been written. -/
theorem read_loadedMemory_other {a : Nat}
    (ha : a < 0x050 ∨ (0x0A0 ≤ a ∧ a < 0x200) ∨ (0x200 + rom.length ≤ a ∧ a ≤ 4095)) :
    (loadedMemory rom font).read a = 0#8 := by
  have hlen : (fontBytes font).length = 80 := length_fontBytes font
  calc (loadedMemory rom font).read a
    _ = (Memory.fill [] 0x050 (fontBytes font)).read a :=
      read_fill_other _ _ _ (by simp only [Config.progBase]; omega)
    _ = Memory.read [] a := read_fill_other _ _ _ (by omega)
    _ = 0#8 := by
      rw [read_nil]
      obtain h | h | h := ha
      · exact resetByte_of_lt h
      · exact resetByte_of_ge h.1
      · exact resetByte_of_ge (by omega)

end

theorem romWellFormed_of_length {rom : List Byte} (h1 : 1 ≤ rom.length) (h2 : rom.length ≤ 3584) :
    romWellFormed rom = true := by
  by_contra h
  obtain h | h := (romWellFormed_eq_false_iff rom).1 (Bool.eq_false_iff.2 h) <;> omega

/-- Settles O48: what a successful `Load` makes is reset's state with other memory and STRICT. -/
theorem loadResetsEverything : Obligations.LoadResetsEverything := by
  intro s rom font strict es h1 h2 hs
  have hstep : step s = .next { State.reset with
      mem := loadedMemory rom font, strict := strict, draws := s.draws, host := es } := by
    rw [step_pending_load hs, performLoad_of_wellFormed font strict _ (romWellFormed_of_length h1 h2)]
  exact ⟨_, hstep, fun k => Vector.getElem_replicate k.isLt, rfl, rfl, rfl, rfl, rfl, cell_clearDisplay, rfl,
    read_loadedMemory_font rom font, read_loadedMemory_rom rom font, fun _ => read_loadedMemory_other rom font,
    rfl, rfl, rfl, rfl, rfl, rfl, rfl, rfl, rfl, rfl⟩

/-! ### Reset (log 3) -/

/-- Bytes that unlisted memory reads as anyway are not listed. -/
theorem fill_nil_of_resetByte {bs : List Byte} {a : Nat} (h : ∀ k (hk : k < bs.length), bs[k] = resetByte (a + k)) :
    Memory.fill [] a bs = [] := by
  induction bs generalizing a with
  | nil => rfl
  | cons b bs ih =>
    have hb : b = resetByte a := h 0 (Nat.succ_pos _)
    rw [Memory.fill, Memory.write, if_pos hb]
    refine ih fun k hk => ?_
    rw [Nat.add_right_comm]
    exact h (k + 1) (Nat.succ_lt_succ hk)

/-- The default font is what its place reads as when unlisted, and so is a ROM of one zero byte. -/
theorem loadedMemory_default : loadedMemory [0#8] none = [] := by
  have hfont : Memory.fill [] Config.fontBase (fontBytes none) = [] := by
    refine fill_nil_of_resetByte fun k hk => ?_
    have hk80 : k < 80 := hk
    rw [resetByte, if_pos (Nat.le_add_right _ _), Nat.add_sub_cancel_left, Vector.getElem?_eq_getElem hk80]
    exact Vector.getElem_toList hk
  rw [loadedMemory, hfont]
  rfl

/-- Settles O50: the zero byte and the default font leave no byte of memory listed, which is reset's memory. -/
theorem resetIsStateAfterLoad : Obligations.ResetIsStateAfterLoad := by
  refine ⟨rfl, rfl, rfl, rfl, rfl, fun k => Vector.getElem_replicate k.isLt, rfl, rfl, rfl, rfl, rfl, rfl, rfl, ?_⟩
  show Host.Outcome.next (performLoad [0#8] none false State.powerOn) = .next State.reset
  rw [performLoad_of_wellFormed none false _ rfl, loadedMemory_default]
  rfl

end Sys2Proof
end

section
/-! PROOFS. The display cell by cell: the cleared screen, one draw, and a draw repeated (spec/44_display.md R211, R212,
R215). -/

namespace Sys2Proof

open Machine

/-! ### What drawing a pattern of bits does -/

/-- From `k` to `k'` the bits of `p` were drawn: each cell is XORed with its bit, and a bit on a set cell is a hit. -/
structure Drawn (p : Nat → Nat → Bool) (k k' : Canvas) : Prop where
  cell : ∀ r c, r < 32 → c < 64 → k'.disp.cell r c = (k.disp.cell r c ^^ p r c)
  hit : k'.hit = true ↔
    k.hit = true ∨ ∃ r c, r < 32 ∧ c < 64 ∧ k.disp.cell r c = true ∧ p r c = true

theorem drawn_nothing (k : Canvas) : Drawn (fun _ _ => false) k k :=
  ⟨fun r c _ _ => (Bool.xor_false _).symm, by simp⟩

theorem Drawn.congr {p q : Nat → Nat → Bool} {k k' : Canvas} (h : Drawn p k k') (hpq : ∀ r c, q r c = p r c) :
    Drawn q k k' :=
  (funext₂ hpq : q = p) ▸ h

/-- Two patterns drawn one after the other, on no common cell, are one pattern: the first leaves the second's cells. -/
theorem Drawn.trans {p q : Nat → Nat → Bool} {k k' k'' : Canvas} (h : Drawn p k k') (h' : Drawn q k' k'')
    (hdisj : ∀ r c, q r c = true → p r c = false) : Drawn (fun r c => p r c || q r c) k k'' where
  cell r c hr hc := by
    rw [h'.cell r c hr hc, h.cell r c hr hc]
    cases hq : q r c with
    | false => simp
    | true => simp [hdisj r c hq]
  hit := by
    have hkeep : ∀ r c, r < 32 → c < 64 → q r c = true → k'.disp.cell r c = k.disp.cell r c := fun r c hr hc hq => by
      rw [h.cell r c hr hc, hdisj r c hq, Bool.xor_false]
    rw [h'.hit, h.hit, or_assoc]
    refine or_congr_right ⟨?_, ?_⟩
    · rintro (⟨r, c, hr, hc, hcell, hp⟩ | ⟨r, c, hr, hc, hcell, hq⟩)
      · exact ⟨r, c, hr, hc, hcell, by simp [hp]⟩
      · exact ⟨r, c, hr, hc, (hkeep r c hr hc hq).symm.trans hcell, by simp [hq]⟩
    · rintro ⟨r, c, hr, hc, hcell, hpq⟩
      obtain hp | hq := Bool.or_eq_true_iff.1 hpq
      · exact .inl ⟨r, c, hr, hc, hcell, hp⟩
      · exact .inr ⟨r, c, hr, hc, (hkeep r c hr hc hq).trans hcell, hq⟩

/-! ### The bits of a row and of a sprite (R212) -/

/-- A cell that is set lies on the grid. -/
theorem lt_of_cell {d : Display} {r c : Nat} (h : d.cell r c = true) : r < 32 ∧ c < 64 := by
  unfold Display.cell at h
  split at h
  · assumption
  · cases h

theorem drawn_plotBit (cy cx : Nat) (bit : Bool) (k : Canvas) :
    Drawn (fun r c => decide (r = cy ∧ c = cx) && bit) k (plotBit cy cx bit k) where
  cell r c hr hc := by
    rw [cell_plotBit]
    by_cases h : r = cy ∧ c = cx
    · obtain ⟨rfl, rfl⟩ := h
      simp [hr, hc]
    · rw [if_neg fun h' => h ⟨h'.1, h'.2.1⟩]
      simp [h]
  hit := by
    rw [hit_plotBit]
    constructor
    · intro h
      obtain h | h := Bool.or_eq_true_iff.1 h
      · exact .inl h
      · obtain ⟨hcell, hbit⟩ := Bool.and_eq_true_iff.1 h
        obtain ⟨hr, hc⟩ := lt_of_cell hcell
        exact .inr ⟨cy, cx, hr, hc, hcell, by simp [hbit]⟩
    · rintro (h | ⟨r, c, -, -, hcell, hbit⟩)
      · simp [h]
      · simp only [Bool.and_eq_true, decide_eq_true_eq] at hbit
        obtain ⟨⟨rfl, rfl⟩, hbit⟩ := hbit
        simp [hcell, hbit]

/-- The bits of the first `m` columns of a sprite byte: bit 7 is the leftmost. -/
def rowBits (x0 cy m : Nat) (b : Byte) (r c : Nat) : Bool :=
  decide (r = cy ∧ x0 ≤ c ∧ c < x0 + m) && b.getLsbD (7 - (c - x0))

/-- By induction on the columns: each one plots a bit to the right of those before it. -/
theorem drawn_columns (x0 cy : Nat) (b : Byte) (k : Canvas) (m : Nat) :
    Drawn (rowBits x0 cy m b) k
      ((List.range m).foldl (fun k col => plotBit cy (x0 + col) (b.getLsbD (7 - col)) k) k) := by
  induction m with
  | zero =>
    refine (drawn_nothing k).congr fun r c => ?_
    have hempty : ¬(r = cy ∧ x0 ≤ c ∧ c < x0 + 0) := by omega
    simp only [rowBits, hempty, decide_false, Bool.false_and]
  | succ m ih =>
    rw [List.range_succ, List.foldl_append]
    refine (ih.trans (drawn_plotBit cy (x0 + m) _ _) fun r c hq => ?_).congr fun r c => ?_
    · have hnot : ¬(r = cy ∧ x0 ≤ c ∧ c < x0 + m) := by simp at hq; omega
      simp only [rowBits, hnot, decide_false, Bool.false_and]
    · by_cases hc : c = x0 + m
      · subst hc
        simp [rowBits]
      · have hlt : c < x0 + (m + 1) ↔ c < x0 + m := by omega
        simp [rowBits, hc, hlt]

theorem drawn_plotRow (x0 cy : Nat) (b : Byte) (k : Canvas) : Drawn (rowBits x0 cy 8 b) k (plotRow x0 cy b k) :=
  drawn_columns x0 cy b k 8

/-- The bits of a sprite: byte `r - y0` is drawn in row `r`. -/
def spriteBits (x0 y0 : Nat) (bs : List Byte) (r c : Nat) : Bool :=
  decide (y0 ≤ r ∧ r < y0 + bs.length ∧ x0 ≤ c ∧ c < x0 + 8) && (bs[r - y0]?.getD 0).getLsbD (7 - (c - x0))

theorem spriteBits_cons (x0 y0 : Nat) (b : Byte) (bs : List Byte) (r c : Nat) :
    spriteBits x0 y0 (b :: bs) r c = (rowBits x0 y0 8 b r c || spriteBits x0 (y0 + 1) bs r c) := by
  obtain hr | rfl | hr := Nat.lt_trichotomy r y0
  · have h1 : ¬y0 ≤ r := by omega
    have h2 : ¬y0 + 1 ≤ r := by omega
    have h3 : r ≠ y0 := by omega
    simp [spriteBits, rowBits, h1, h2, h3]
  · simp [spriteBits, rowBits]
  · obtain ⟨j, rfl⟩ := Nat.exists_eq_add_of_lt hr
    have h1 : y0 + j + 1 - y0 = j + 1 := by omega
    have h2 : y0 + j + 1 - (y0 + 1) = j := by omega
    have h3 : y0 + j + 1 < y0 + (bs.length + 1) ↔ y0 + j + 1 < y0 + 1 + bs.length := by omega
    have h4 : y0 + j + 1 ≠ y0 := by omega
    have h5 : y0 ≤ y0 + j + 1 ∧ y0 + 1 ≤ y0 + j + 1 := by omega
    simp [spriteBits, rowBits, h1, h2, h3, h4, h5]

/-- By induction on the bytes: each row lies above those after it. -/
theorem drawn_drawSprite (x0 y0 : Nat) (bs : List Byte) (k : Canvas) :
    Drawn (spriteBits x0 y0 bs) k (drawSprite x0 y0 bs k) := by
  induction bs generalizing y0 k with
  | nil =>
    refine (drawn_nothing k).congr fun r c => ?_
    have hempty : ¬(y0 ≤ r ∧ r < y0 + 0 ∧ x0 ≤ c ∧ c < x0 + 8) := by omega
    simp only [spriteBits, List.length_nil, hempty, decide_false, Bool.false_and]
  | cons b bs ih =>
    refine ((drawn_plotRow x0 y0 b k).trans (ih (y0 + 1) _) fun r c hq => ?_).congr (spriteBits_cons x0 y0 b bs)
    have hnot : ¬(r = y0 ∧ x0 ≤ c ∧ c < x0 + 8) := by simp [spriteBits] at hq; omega
    simp only [rowBits, hnot, decide_false, Bool.false_and]

/-! ### `00E0` -/

/-- Settles O38: the working copy differs from the state in the display only, which is cleared. -/
theorem clearScreenClearsAll : Obligations.ClearScreenClearsAll := by
  intro s hp
  refine ⟨decodeTableWord_of_eq_encodeWord (i := .cls) rfl, { s with
    disp := clearDisplay, pc := s.pc + 2#16, reply := .stepped ⟨.none, true, decide (0 < s.st.toNat)⟩ }, ?_,
    cell_clearDisplay, rfl⟩
  calc exec .cls s
    _ = commit s { s with disp := clearDisplay } s.npc true := rfl
    _ = _ := by
      rw [commit_of_le (by simp only [State.npc]; omega), ofNat_npc]
      rfl

/-! ### `Dxyn` -/

/-- The bytes read at I give the bits of R212. -/
theorem spriteBits_eq_spriteBit (s : State) (x y : Reg) (n r c : Nat) :
    s.spriteBit x y n r c =
      spriteBits (s.drawCol x) (s.drawRow y) ((List.range n).map fun k => s.mem.read (s.dataAddr + k)) r c := by
  have hcol : s.drawCol x = s.v[x].toNat % 64 := rfl
  have hrow : s.drawRow y = s.v[y].toNat % 32 := rfl
  simp only [State.spriteBit, spriteBits, hcol, hrow, List.length_map, List.length_range]
  by_cases h : s.v[y].toNat % 32 ≤ r ∧ r < s.v[y].toNat % 32 + n
  · have hlt : r - s.v[y].toNat % 32 < n := by omega
    have hbyte : ((List.range n).map fun k => s.mem.read (s.dataAddr + k))[r - s.v[y].toNat % 32]?.getD 0 =
        s.mem.read (s.idx.toNat + (r - s.v[y].toNat % 32)) := by
      rw [List.getElem?_map, List.getElem?_range hlt]
      rfl
    rw [hbyte]
  · have hnot : ∀ q, ¬(s.v[y].toNat % 32 ≤ r ∧ r < s.v[y].toNat % 32 + n ∧ q) := fun q hq => h ⟨hq.1, hq.2.1⟩
    simp only [hnot, decide_false, Bool.false_and]

/-- A draw whose bytes end at 4095 or below commits the canvas drawn and its collision flag. -/
theorem exec_drw_of_le {x y : Reg} {n : Fin 16} {s : State} (hp : s.pc.toNat ≤ 0xFFD)
    (hn : n.val = 0 ∨ s.idx.toNat + n.val ≤ 4096) :
    ∃ k, Drawn (s.spriteBit x y n) ⟨s.disp, false⟩ k ∧ exec (.drw x y n) s = .next { s with
      v := s.v.set VF (flagByte k.hit), disp := k.disp, pc := s.pc + 2#16
      reply := .stepped ⟨.none, true, decide (0 < s.st.toNat)⟩ } := by
  refine ⟨_, (drawn_drawSprite _ _ _ _).congr (spriteBits_eq_spriteBit s x y n), ?_⟩
  have hr : s.mem.readBlock s.dataAddr n.val = some ((List.range n.val).map fun k => s.mem.read (s.dataAddr + k)) :=
    if_pos hn
  rw [exec, execDrw, hr]
  simp only
  rw [commit_of_le (by simp only [State.npc]; omega), ofNat_npc]
  rfl

theorem exec_drw_of_gt {x y : Reg} {n : Fin 16} {s : State} (h0 : n.val ≠ 0) (hn : 4096 < s.idx.toNat + n.val) :
    exec (.drw x y n) s = .next s.afterMemoryFault := by
  have hr : s.mem.readBlock s.dataAddr n.val = none := (readBlock_eq_none _ _ _).2 ⟨h0, hn⟩
  rw [exec, execDrw, hr, takeFault_memoryFault_eq]

/-- A draw that fits in memory: its cells, its collision flag and its frame. -/
theorem exec_drw_spec {x y : Reg} {n : Fin 16} {s : State} (hp : s.pc.toNat ≤ 0xFFD)
    (hn : n.val = 0 ∨ s.idx.toNat + n.val ≤ 4096) :
    ∃ t, exec (.drw x y n) s = .next t ∧
      (∀ r c, r < 32 → c < 64 → t.disp.cell r c = (s.disp.cell r c ^^ s.spriteBit x y n r c)) ∧
      (t.v[VF] = 0#8 ∨ t.v[VF] = 1#8) ∧
      (t.v[VF] = 1#8 ↔ ∃ r c, r < 32 ∧ c < 64 ∧ s.disp.cell r c = true ∧ s.spriteBit x y n r c = true) ∧
      (∀ k : Reg, k ≠ VF → t.v[k] = s.v[k]) ∧
      t = { s with v := t.v, disp := t.disp, pc := s.pc + 2#16
                   reply := .stepped ⟨.none, true, decide (0 < s.st.toNat)⟩ } := by
  obtain ⟨k, hk, hexec⟩ := exec_drw_of_le hp hn
  have hF : (s.v.set VF (flagByte k.hit))[VF] = flagByte k.hit := getV_setV_same s VF _
  refine ⟨_, hexec, hk.cell, ?_, ?_, fun j hj => getV_setV_other s hj _, rfl⟩
  · simp only [hF]
    exact flagByte_zero_or_one k.hit
  · simp only [hF, flagByte_eq_one, hk.hit, Bool.false_eq_true, false_or]

theorem toNat_nibbleOf (r : Reg) : (nibbleOf r).toNat = r.val :=
  (BitVec.toNat_ofNat r.val 4).trans (Nat.mod_eq_of_lt r.isLt)

/-- Settles O39: the sprite's bytes all lie in memory, or one lies above 4095. -/
theorem drawXorsSpriteAndReportsCollision : Obligations.DrawXorsSpriteAndReportsCollision := by
  intro x y n s hp
  refine ⟨decodeTableWord_of_eq_encodeWord ?_, exec_drw_spec hp, exec_drw_of_gt⟩
  rw [← toNat_nibbleOf n]
  exact tableWord_formXYN 0xD x y (nibbleOf n)

/-- Displays with the same cells are the same. -/
theorem display_ext {d d' : Display} (h : ∀ r c, r < 32 → c < 64 → d.cell r c = d'.cell r c) : d = d' := by
  refine Vector.ext fun r hr => Vector.ext fun c hc => ?_
  have hcell := h r c hr hc
  simpa [Display.cell, hr, hc] using hcell

/-- A later state with the same I, Vx, Vy and bytes has the same sprite. -/
theorem spriteBit_congr {s t : State} {x y : Reg} (hx : t.v[x] = s.v[x]) (hy : t.v[y] = s.v[y]) (hi : t.idx = s.idx)
    (hm : t.mem = s.mem) (n r c : Nat) : t.spriteBit x y n r c = s.spriteBit x y n r c := by
  simp only [State.spriteBit, hx, hy, hi, hm]

/-- Settles O40: XOR with the same bit twice gives the cell back, and the second draw hits what the first one lit. -/
theorem drawTwiceRestores : Obligations.DrawTwiceRestores := by
  intro x y n s t u hp hx hy hn ht hu
  obtain ⟨t', ht', hcell, -, -, hother, hframe⟩ := exec_drw_spec (x := x) (y := y) (n := n) (s := s) (by omega) hn
  cases ht'.symm.trans ht
  have hidx : t.idx = s.idx := by rw [hframe]
  have hpc : t.pc = s.pc + 2#16 := by rw [hframe]
  have hsame : ∀ r c, t.spriteBit x y n r c = s.spriteBit x y n r c :=
    spriteBit_congr (hother x hx) (hother y hy) hidx (by rw [hframe]) n
  obtain ⟨u', hu', hcell', -, hhit', -, -⟩ :=
    exec_drw_spec (x := x) (y := y) (n := n) (s := t) (by rw [hpc]; bv_omega) (by rw [hidx]; exact hn)
  cases hu'.symm.trans hu
  refine ⟨display_ext fun r c hr hc => ?_, ?_⟩
  · rw [hcell' r c hr hc, hcell r c hr hc, hsame, Bool.xor_assoc, Bool.xor_self, Bool.xor_false]
  · rw [hhit']
    refine exists₂_congr fun r c => and_congr_right fun hr => and_congr_right fun hc => ?_
    rw [hcell r c hr hc, hsame]
    cases s.spriteBit x y n r c <;> simp

end Sys2Proof
end
